-- ==== Sys2Proof/Word.lean ====
section
/-!
DEFINITION. The words of the chip8-emulator CORE (spec/00_scope.md R6, R8): every value is an unsigned bit vector
of the width the spec gives it; a register is named by a number 0 to 15 (spec/30_encoding.md R49).
-/
namespace Sys2Proof

/-- A memory cell, a general register, a timer, an immediate `kk` (00_scope.md R6: REG_WIDTH, TIMER_WIDTH). -/
abbrev Byte := BitVec 8

/-- I, PC, a stack entry, an instruction word (00_scope.md R6: I_WIDTH, PC_WIDTH, STACK_ENTRY_WIDTH; R48). -/
abbrev Word := BitVec 16

/-- Half a byte: the opcode field and the selector field (00_scope.md R7, R13). -/
abbrev Nibble := BitVec 4

/-- The address field of JP, CALL and LDI (00_scope.md R6: ADDR_FIELD). -/
abbrev Addr12 := BitVec 12

/-- The number of a general register; 15 is VF (10_state.md R19, 00_scope.md R9). -/
abbrev Reg := Fin 16

end Sys2Proof
end

