-- ==== Sys2Proof/Config.lean ====
section
/-!
DEFINITION. What is fixed for the machine (spec/00_scope.md R6, the parameter table) and the one free value: the bytes
the host's random source supplies (spec/60_exceptions.md R114). The font, which a test could show wrong, stands in
Machine/Memory.lean.
-/
namespace Sys2Proof.Config

/-- MEM_SIZE: addresses 0x000 to 0xFFF exist (00_scope.md R6, 20_memory.md R32). -/
@[simp] def memSize : Nat := 0x1000

/-- PROG_BASE: the ROM's load address and the initial PC (00_scope.md R6). -/
@[simp] def progBase : Nat := 0x200

/-- MAX_ROM: the largest ROM image, 4096 - 0x200 bytes (00_scope.md R6). -/
@[simp] def maxRom : Nat := 3584

/-- The byte the host supplies at rnd_in for the `k`-th RND executed, counted from 0 (60_exceptions.md R114: "no
determinism guarantee"; 93_implementation_defined.md U6: any value). FREE VALUE: no body, so nothing can be proved of
it. DESIGN CHOICE (log entry 2; safe but for claims that compare two runs). -/
opaque rndIn : Nat → Byte

end Sys2Proof.Config
end

