-- ==== Sys2Proof/Machine/State.lean ====
section
/-!
DEFINITION. The machine's state, as plain data: the tuple of spec/10_state.md R17, and one field of the model's own
(`rndCount`, log entry 2); the reasons a step can stop; the state right after reset (spec/70_reset_and_hazards.md R119).
-/
namespace Sys2Proof.Machine

/-- MEM as the list of the cells that differ from the reset content (Machine/Memory.lean says what an unlisted address
reads as, and which lists are canonical; log entry 19). -/
abbrev Memory := List Host.Cell

/-- The fault causes of 60_exceptions.md R97, in the order of their codes 0 to 5. -/
inductive FaultCode where
  | none
  | illegalInstruction
  | stackUnderflow
  | stackOverflow
  | memRange
  | loadTooLarge
  deriving DecidableEq, Repr

/-- The complete architectural state (10_state.md R17, R18). -/
structure State where
  /-- MEM[0x000..0xFFF] (20_memory.md R32) -/
  mem : Memory
  /-- V[0..15]; VF is `v[15]` (10_state.md R19, R21) -/
  v : Vector Byte 16
  /-- I (10_state.md R23) -/
  i : Word
  /-- PC (10_state.md R24) -/
  pc : Word
  /-- SP, the number of stack entries in use, 0 to 16 (10_state.md R26) -/
  sp : Fin 17
  /-- STK[0..15] (10_state.md R26) -/
  stk : Vector Word 16
  /-- DT, the delay timer (10_state.md R27) -/
  dt : Byte
  /-- ST, the sound timer (10_state.md R27) -/
  st : Byte
  /-- FB[c][r], column c of 64 and row r of 32, `true` a lit pixel (10_state.md R28) -/
  fb : Vector (Vector Bool 32) 64
  /-- KEY[0..15] (10_state.md R29) -/
  key : Vector Bool 16
  /-- HALTED (10_state.md R30) -/
  halted : Bool
  /-- FAULT_CODE (10_state.md R30, 60_exceptions.md R97) -/
  faultCode : FaultCode
  /-- FAULT_PC (10_state.md R30) -/
  faultPc : Word
  /-- FAULT_INFO (10_state.md R30) -/
  faultInfo : Word
  /-- THE MODEL'S OWN FIELD: how many bytes RND has taken from rnd_in (60_exceptions.md R114); log entry 2. -/
  rndCount : Nat
  deriving DecidableEq, Repr

/-- Why a step stops. Every fault of the spec is a NEXT state, with the latch set (60_exceptions.md R102); this is only
what follows it. -/
inductive Fault where
  /-- Raised by `step`, and by nothing else, when HALTED = 1: "no step exists" (40_sequencer.md R58), "a model treats
  it as a fault, never final" (60_exceptions.md R102). Carries what the latch holds. SAFE: no state follows, as the
  spec says. DEDUCED (log entry 1). -/
  | halted (code : FaultCode) (pc info : Word)
  deriving DecidableEq, Repr

/-- What is turned away. -/
inductive Refusal where
  /-- An arm of exec that has no meaning yet. No arm raises it in this model. SAFE. -/
  | notModelled (mnemonic : String)
  /-- Raised by the host's moves `portSetKey` and `portClearKey`, never by a step, for an index outside 0..15, which
  60_exceptions.md R115 says "is refused". SAFE: the spec names the refusal (93_implementation_defined.md U17). -/
  | keyIndex (index : Nat)
  deriving DecidableEq, Repr

/-- The state after reset with an empty ROM (70_reset_and_hazards.md R119; 10_state.md R18). The stack entries are "left
unspecified": 0 here, DESIGN CHOICE (log entry 3). `rndCount` starts at 0, DESIGN CHOICE (log entry 2). -/
def State.reset : State where
  mem := []
  v := Vector.replicate 16 0
  i := 0
  pc := 0x0200
  sp := 0
  stk := Vector.replicate 16 0
  dt := 0
  st := 0
  fb := Vector.replicate 64 (Vector.replicate 32 false)
  key := Vector.replicate 16 false
  halted := false
  faultCode := .none
  faultPc := 0
  faultInfo := 0
  rndCount := 0

end Sys2Proof.Machine
end

