-- ==== Sys2Proof/Machine/Memory.lean ====
section
/-!
DEFINITION. The memory array (spec/20_memory.md R32) behind its list of cells: what an unlisted address reads as, the
read and the write of one byte, and the canonical form of the list. Range checks are Ops.lean's (R39).
-/
namespace Sys2Proof.Machine

/-- FONT: the 80 bytes at 0x000 to 0x04F, glyphs 0 to F of five bytes each, row 0 first (20_memory.md R35, "from general
knowledge, not in source"). UNVERIFIED (log entry 5). -/
def font : List Byte :=
  [0xF0, 0x90, 0x90, 0x90, 0xF0] ++ [0x20, 0x60, 0x20, 0x20, 0x70] ++
  [0xF0, 0x10, 0xF0, 0x80, 0xF0] ++ [0xF0, 0x10, 0xF0, 0x10, 0xF0] ++
  [0x90, 0x90, 0xF0, 0x10, 0x10] ++ [0xF0, 0x80, 0xF0, 0x10, 0xF0] ++
  [0xF0, 0x80, 0xF0, 0x90, 0xF0] ++ [0xF0, 0x10, 0x20, 0x40, 0x40] ++
  [0xF0, 0x90, 0xF0, 0x90, 0xF0] ++ [0xF0, 0x90, 0xF0, 0x10, 0xF0] ++
  [0xF0, 0x90, 0xF0, 0x90, 0x90] ++ [0xE0, 0x90, 0xE0, 0x90, 0xE0] ++
  [0xF0, 0x80, 0x80, 0x80, 0xF0] ++ [0xE0, 0x90, 0x90, 0x90, 0xE0] ++
  [0xF0, 0x80, 0xF0, 0x80, 0xF0] ++ [0xF0, 0x80, 0xF0, 0x80, 0x80]

/-- What an address that no cell lists reads as: the reset content of 20_memory.md R34 with no ROM, the font at 0x000 to
0x04F and 0x00 elsewhere. -/
def Memory.initial (a : Nat) : Byte := font.getD a 0

/-- The byte at `a` (20_memory.md R32, R41). -/
def Memory.read : Memory → Nat → Byte
  | [], a => Memory.initial a
  | c :: m, a => if c.1 = a then c.2 else Memory.read m a

/-- A cell put before the first cell whose address is not below its own. -/
def Memory.insert (c : Host.Cell) : Memory → Memory
  | [] => [c]
  | d :: m => if c.1 ≤ d.1 then c :: d :: m else d :: Memory.insert c m

/-- The byte at `a` becomes `b` (20_memory.md R32); the list stays canonical: what reads as at reset is not listed. -/
def Memory.write (m : Memory) (a : Nat) (b : Byte) : Memory :=
  let rest := m.filter fun c => c.1 != a
  if b = Memory.initial a then rest else Memory.insert (a, b) rest

/-- The canonical form: addresses strictly rising and below MEM_SIZE, no cell equal to what its address reads as
unlisted. Equal memories are then equal lists. -/
abbrev Memory.wf (m : Memory) : Prop :=
  m.Pairwise (fun c d => c.1 < d.1) ∧ ∀ c ∈ m, c.1 < Config.memSize ∧ c.2 ≠ Memory.initial c.1

end Sys2Proof.Machine
end

