-- ==== Sys2Proof/Machine/Operands.lean ====
section
/-!
DEFINITION. The operand forms of spec/30_encoding.md R51, and the operand forms the memory and display instructions build
from them: the data address I + k (spec/43_index_memory.md R80), the register range of LDRM and LDV (R85, R86), the
digits of LDB (R84), the bits and pixel coordinates of DRW (spec/44_display.md R87, R88).
-/
namespace Sys2Proof.Machine

/-- Register operand: V[r] (30_encoding.md R51; 00_scope.md R9). -/
def State.getV (s : State) (r : Reg) : Byte := s.v[r]

/-- V[r] <- b (00_scope.md R9). -/
def State.setV (s : State) (r : Reg) (b : Byte) : State := { s with v := s.v.set r b }

/-- VF, general register and flag register (10_state.md R21; 00_scope.md R9). -/
abbrev regF : Reg := 15

/-- Address operand: `zext_16(addr)` (30_encoding.md R51). -/
def zextAddr (addr : Addr12) : Word := addr.setWidth 16

/-- The data address I + k: an exact sum, never wrapped (43_index_memory.md R80, 20_memory.md R39). -/
def dataAddr (s : State) (k : Nat) : Nat := s.i.toNat + k

/-- V0, V1, ..., VF. -/
def allRegs : List Reg := [0, 1, 2, 3, 4, 5, 6, 7, 8, 9, 10, 11, 12, 13, 14, 15]

/-- The registers V0..V(x-1) that LDRM and LDV move: x is an exclusive bound (43_index_memory.md R85; 90_conflicts.md
C1; log entry 10). -/
def bulkRegs (x : Reg) : List Reg := allRegs.take x.val

/-- Hundreds, tens and ones of v, in the order LDB stores them (43_index_memory.md R84). -/
def decimalDigits (v : Byte) : List Byte :=
  [BitVec.ofNat 8 (v.toNat / 100), BitVec.ofNat 8 (v.toNat / 10 % 10), BitVec.ofNat 8 (v.toNat % 10)]

/-- The sprite bit at column offset c, 0 to 7, of a row byte: bit 7 is offset 0 (44_display.md R87). UNVERIFIED (log
entry 7). -/
def spriteBit (b : Byte) (c : Nat) : Bool := b.getLsbD (7 - c)

/-- The column of column offset c in a sprite at cx: wraps modulo 64 (44_display.md R88). -/
def pixelCol (cx : Byte) (c : Nat) : Fin 64 := ⟨(cx.toNat + c) % 64, Nat.mod_lt _ (by decide)⟩

/-- The framebuffer row of sprite row r in a sprite at cy: wraps modulo 32 (44_display.md R88). -/
def pixelRow (cy : Byte) (r : Nat) : Fin 32 := ⟨(cy.toNat + r) % 32, Nat.mod_lt _ (by decide)⟩

/-- FB[c][r] (00_scope.md R9). -/
def State.pixel (s : State) (c : Fin 64) (r : Fin 32) : Bool := s.fb[c][r]

/-- FB[c][r] <- b (00_scope.md R9). -/
def State.setPixel (s : State) (c : Fin 64) (r : Fin 32) (b : Bool) : State :=
  { s with fb := s.fb.set c (s.fb[c].set r b) }

end Sys2Proof.Machine
end

