-- ==== Sys2Proof/Machine/Flags.lean ====
section
/-!
DEFINITION. The three flag computations that write VF (spec/10_state.md R21): the overflow of ADDC, the "no borrow" of
SUB and the collision bit of DRW. Each is a test on exact, unsigned values (spec/00_scope.md R8).
-/
namespace Sys2Proof.Machine

/-- ADDC overflows: the exact sum does not fit 8 bits (42_alu.md R77: s >= 256). -/
def addOverflows (a b : Byte) : Bool := decide (256 ≤ a.toNat + b.toNat)

/-- SUB acts: a is greater than b (42_alu.md R78). -/
def subActs (a b : Byte) : Bool := decide (b.toNat < a.toNat)

/-- The collision bit of one sprite bit: the bit and the pixel's value before the XOR (44_display.md R90), as the byte VF
takes. -/
def collisionFlag (bit old : Bool) : Byte := if bit && old then 1 else 0

end Sys2Proof.Machine
end

