-- ==== Sys2Proof/Machine/Ops.lean ====
section
/-!
DEFINITION. The operations the meanings share (spec/00_scope.md R10): raising a fault, the checked byte accesses, the
stack, and the loops over them. An operation that can fault answers `Except State`: `.error h` is the HALTED state the
fault leaves, with every earlier effect kept (spec/60_exceptions.md R102, R103), and the rest of the step does not run.
-/
namespace Sys2Proof.Machine

/-- What exec and step answer. -/
abbrev Result := Host.Outcome State Fault Refusal

/-- `raise Fault(code, info)` with CUR given (60_exceptions.md R102): the latch is set, nothing is undone. -/
def raiseAt (cur : Word) (code : FaultCode) (info : Word) (s : State) : State :=
  { s with halted := true, faultCode := code, faultPc := cur, faultInfo := info }

/-- CUR during Execute: the fetch has already advanced PC to CUR + 2 (10_state.md R24, 40_sequencer.md R58; log
entry 17). -/
def curPc (s : State) : Word := s.pc - 2

/-- `raise Fault(code, info)` during Execute, TAKING THE FAULT (60_exceptions.md R102). -/
def raise (code : FaultCode) (info : Word) (s : State) : State := raiseAt (curPc s) code info s

/-- MemRead(a, 1): an address at or above 0x1000 faults and is not read (20_memory.md R39; 00_scope.md R10). -/
def memRead (a : Nat) (s : State) : Except State Byte :=
  if a < Config.memSize then .ok (Memory.read s.mem a) else .error (raise .memRange (BitVec.ofNat 16 a) s)

/-- MemWrite(a, 1, b): an address at or above 0x1000 faults and is not written (20_memory.md R39; 00_scope.md R10). -/
def memWrite (a : Nat) (b : Byte) (s : State) : Except State State :=
  if a < Config.memSize then .ok { s with mem := Memory.write s.mem a b }
  else .error (raise .memRange (BitVec.ofNat 16 a) s)

/-- The bytes stored one after another from address `a` up, each access checked just before it happens (20_memory.md
R42). -/
def storeBytes (a : Nat) : List Byte → State → Except State State
  | [], s => .ok s
  | b :: bs, s =>
    match memWrite a b s with
    | .error h => .error h
    | .ok s' => storeBytes (a + 1) bs s'

/-- The registers loaded one after another from address `a` up, each access checked just before it happens (20_memory.md
R42, 43_index_memory.md R86). -/
def loadRegs (a : Nat) : List Reg → State → Except State State
  | [], s => .ok s
  | r :: rs, s =>
    match memRead a s with
    | .error h => .error h
    | .ok b => loadRegs (a + 1) rs (s.setV r b)

/-- Push(v): STACK_OVERFLOW when SP = STACK_DEPTH, before any stack state changes (10_state.md R26). -/
def push (v : Word) (s : State) : Except State State :=
  if h : s.sp.val < 16 then .ok { s with stk := s.stk.set s.sp.val v h, sp := ⟨s.sp.val + 1, by omega⟩ }
  else .error (raise .stackOverflow 0 s)

/-- Pop(): STACK_UNDERFLOW when SP = 0, before any stack state changes; the entry itself stays in STK (10_state.md
R26). -/
def pop (s : State) : Except State (Word × State) :=
  if h : s.sp.val = 0 then .error (raise .stackUnderflow 0 s)
  else .ok (s.stk[s.sp.val - 1]'(by omega), { s with sp := ⟨s.sp.val - 1, by omega⟩ })

/-- RandomByte(): one byte from rnd_in (60_exceptions.md R114), a free value; the byte is taken, so the count advances
(log entry 2). -/
def randomByte (s : State) : Byte × State :=
  (Config.rndIn s.rndCount, { s with rndCount := s.rndCount + 1 })

/-- One sprite bit XOR-ed into its pixel, VF its collision bit (44_display.md R92, the inner loop's body). -/
def drawBit (b cx cy : Byte) (r c : Nat) (s : State) : State :=
  let bit := spriteBit b c
  let col := pixelCol cx c
  let row := pixelRow cy r
  let old := s.pixel col row
  (s.setPixel col row (old ^^ bit)).setV regF (collisionFlag bit old)

/-- Column offsets c, c + 1, ..., c + n - 1 of one sprite row (44_display.md R92, the inner loop). -/
def drawBits (b cx cy : Byte) (r : Nat) : Nat → Nat → State → State
  | _, 0, s => s
  | c, n + 1, s => drawBits b cx cy r (c + 1) n (drawBit b cx cy r c s)

/-- Sprite rows r, r + 1, ..., r + n - 1, each read just before it is composed (44_display.md R92, the outer loop;
20_memory.md R42). -/
def drawRows (cx cy : Byte) : Nat → Nat → State → Except State State
  | _, 0, s => .ok s
  | r, n + 1, s =>
    match memRead (dataAddr s r) s with
    | .error h => .error h
    | .ok b => drawRows cx cy (r + 1) n (drawBits b cx cy r 0 8 s)

/-- Execute ends: with its own effect, or in the halted state of the fault it raised. Both are next states
(60_exceptions.md R102). -/
def finish : Except State State → Result
  | .ok s => .next s
  | .error h => .next h

end Sys2Proof.Machine
end

