-- ==== Sys2Proof/Machine/Alu.lean ====
section
/-!
DEFINITION. ALU and register instructions (spec/42_alu.md). All register operands are read before any register is written
(R71).
-/
namespace Sys2Proof.Machine

/-- LD Vx, kk (42_alu.md R72). -/
def execLd (x : Reg) (kk : Byte) (s : State) : Result := .next (s.setV x kk)

/-- ADD Vx, kk: wraps modulo 256, no flag (42_alu.md R73). -/
def execAdd (x : Reg) (kk : Byte) (s : State) : Result := .next (s.setV x (s.getV x + kk))

/-- LDR Vx, Vy (42_alu.md R74). -/
def execLdr (x y : Reg) (s : State) : Result := .next (s.setV x (s.getV y))

/-- AND Vx, Vy (42_alu.md R75). -/
def execAnd (x y : Reg) (s : State) : Result := .next (s.setV x (s.getV x &&& s.getV y))

/-- XOR Vx, Vy (42_alu.md R76). -/
def execXor (x y : Reg) (s : State) : Result := .next (s.setV x (s.getV x ^^^ s.getV y))

/-- ADDC Vx, Vy: on overflow VF <- 1 and the sum is discarded; otherwise Vx receives the sum and VF is left as it is
(42_alu.md R77; 90_conflicts.md C3; log entry 11). -/
def execAddc (x y : Reg) (s : State) : Result :=
  let a := s.getV x
  let b := s.getV y
  .next (if addOverflows a b then s.setV regF 1 else s.setV x (a + b))

/-- SUB Vx, Vy: when Vx > Vy, VF <- 1 and then Vx <- Vx - Vy; otherwise nothing (42_alu.md R78). With x = F the register
write is the later one (10_state.md R22; log entry 13). -/
def execSub (x y : Reg) (s : State) : Result :=
  let a := s.getV x
  let b := s.getV y
  .next (if subActs a b then (s.setV regF 1).setV x (a - b) else s)

/-- RND Vx, kk: takes one byte from rnd_in, whatever kk is (42_alu.md R79). -/
def execRnd (x : Reg) (kk : Byte) (s : State) : Result :=
  let (r, s') := randomByte s
  .next (s'.setV x (r &&& kk))

end Sys2Proof.Machine
end

