-- ==== Sys2Proof/Machine/Control.lean ====
section
/-!
DEFINITION. Control transfer (spec/41_control_flow.md). Each meaning runs after the fetch and the tick: PC is already the
address of the next word (spec/40_sequencer.md R60).
-/
namespace Sys2Proof.Machine

/-- PC + 2: the next word is skipped (41_control_flow.md R69; 40_sequencer.md R61). -/
def skip (s : State) : State := { s with pc := s.pc + 2 }

/-- RET (41_control_flow.md R66). -/
def execRet (s : State) : Result :=
  match pop s with
  | .error h => .next h
  | .ok (v, s') => .next { s' with pc := v }

/-- JP addr (41_control_flow.md R67). -/
def execJp (addr : Addr12) (s : State) : Result := .next { s with pc := zextAddr addr }

/-- CALL addr (41_control_flow.md R68). -/
def execCall (addr : Addr12) (s : State) : Result :=
  match push s.pc s with
  | .error h => .next h
  | .ok s' => .next { s' with pc := zextAddr addr }

/-- SE Vx, kk (41_control_flow.md R69). -/
def execSe (x : Reg) (kk : Byte) (s : State) : Result :=
  .next (if s.getV x = kk then skip s else s)

/-- SNE Vx, kk (41_control_flow.md R70). -/
def execSne (x : Reg) (kk : Byte) (s : State) : Result :=
  .next (if s.getV x ≠ kk then skip s else s)

end Sys2Proof.Machine
end

