-- ==== Sys2Proof/Machine/Display.lean ====
section
/-!
DEFINITION. The framebuffer compositor's instructions (spec/44_display.md).
-/
namespace Sys2Proof.Machine

/-- CLS: every pixel 0, VF not changed (44_display.md R91). -/
def execCls (s : State) : Result :=
  .next { s with fb := Vector.replicate 64 (Vector.replicate 32 false) }

/-- DRW Vx, Vy, n: the coordinates are read once, before any write (44_display.md R92). -/
def execDrw (x y : Reg) (n : Fin 16) (s : State) : Result :=
  finish (drawRows (s.getV x) (s.getV y) 0 n.val s)

end Sys2Proof.Machine
end

