-- ==== Sys2Proof/Machine/IndexMemory.lean ====
section
/-!
DEFINITION. Index register and memory instructions (spec/43_index_memory.md). None of them changes I as a side effect
(R80).
-/
namespace Sys2Proof.Machine

/-- LDI addr (43_index_memory.md R81). -/
def execLdi (addr : Addr12) (s : State) : Result := .next { s with i := zextAddr addr }

/-- ADDI Vx: wraps modulo 65536, no flag (43_index_memory.md R82; log entry 14). -/
def execAddi (x : Reg) (s : State) : Result := .next { s with i := s.i + (s.getV x).setWidth 16 }

/-- LDF Vx: the product at full width, Vx not masked (43_index_memory.md R83; log entry 14). -/
def execLdf (x : Reg) (s : State) : Result := .next { s with i := (s.getV x).setWidth 16 * 5 }

/-- LDB Vx (43_index_memory.md R84). -/
def execLdb (x : Reg) (s : State) : Result :=
  finish (storeBytes (dataAddr s 0) (decimalDigits (s.getV x)) s)

/-- LDRM Vx (43_index_memory.md R85). -/
def execLdrm (x : Reg) (s : State) : Result :=
  finish (storeBytes (dataAddr s 0) ((bulkRegs x).map s.getV) s)

/-- LDV Vx (43_index_memory.md R86). -/
def execLdv (x : Reg) (s : State) : Result := finish (loadRegs (dataAddr s 0) (bulkRegs x) s)

end Sys2Proof.Machine
end

