-- ==== Sys2Proof/Machine/Timers.lean ====
section
/-!
DEFINITION. Timer instructions (spec/45_timers.md). Each sees the timers after the tick of its own step (R93): step
ticks before it calls exec.
-/
namespace Sys2Proof.Machine

/-- DTLD Vx (45_timers.md R94). -/
def execDtld (x : Reg) (s : State) : Result := .next (s.setV x s.dt)

/-- LDDT Vx (45_timers.md R95). -/
def execLddt (x : Reg) (s : State) : Result := .next { s with dt := s.getV x }

/-- LDST Vx (45_timers.md R96). -/
def execLdst (x : Reg) (s : State) : Result := .next { s with st := s.getV x }

end Sys2Proof.Machine
end

