-- ==== Sys2Proof/Syntax.lean ====
section
/-!
DEFINITION. The instructions of spec/opcode_table.json, one constructor a row, with their operands (spec/30_encoding.md
R50, R51). A word outside the table decodes to the Unknown sentinel, which is no row and so no constructor here
(Decode.lean's `Decoded.unknown`; log entry 18).
-/
namespace Sys2Proof

/-- The 24 instructions (00_scope.md R2). Every operand has exactly its field's range, and every value in the range is
legal (30_encoding.md R51), so no ill-formed instruction can be written. -/
inductive Instr where
  /-- `CLS`, word 0x0?E0 (44_display.md R91) -/
  | cls
  /-- `RET`, word 0x0?EE (41_control_flow.md R66) -/
  | ret
  /-- `JP addr`, word 0x1nnn (41_control_flow.md R67) -/
  | jp (addr : Addr12)
  /-- `CALL addr`, word 0x2nnn (41_control_flow.md R68) -/
  | call (addr : Addr12)
  /-- `SE Vx, kk`, word 0x3xkk (41_control_flow.md R69) -/
  | se (x : Reg) (kk : Byte)
  /-- `SNE Vx, kk`, word 0x4xkk (41_control_flow.md R70) -/
  | sne (x : Reg) (kk : Byte)
  /-- `LD Vx, kk`, word 0x6xkk (42_alu.md R72) -/
  | ld (x : Reg) (kk : Byte)
  /-- `ADD Vx, kk`, word 0x7xkk (42_alu.md R73) -/
  | add (x : Reg) (kk : Byte)
  /-- `LDR Vx, Vy`, word 0x8xy0 (42_alu.md R74) -/
  | ldr (x y : Reg)
  /-- `AND Vx, Vy`, word 0x8xy2 (42_alu.md R75) -/
  | and (x y : Reg)
  /-- `XOR Vx, Vy`, word 0x8xy3 (42_alu.md R76) -/
  | xor (x y : Reg)
  /-- `ADDC Vx, Vy`, word 0x8xy4 (42_alu.md R77) -/
  | addc (x y : Reg)
  /-- `SUB Vx, Vy`, word 0x8xy5 (42_alu.md R78) -/
  | sub (x y : Reg)
  /-- `LDI addr`, word 0xAnnn (43_index_memory.md R81) -/
  | ldi (addr : Addr12)
  /-- `RND Vx, kk`, word 0xCxkk (42_alu.md R79) -/
  | rnd (x : Reg) (kk : Byte)
  /-- `DRW Vx, Vy, n`, word 0xDxyn (44_display.md R92); n is a count of sprite rows, 0 to 15 -/
  | drw (x y : Reg) (n : Fin 16)
  /-- `DTLD Vx`, word 0xFx07 (45_timers.md R94) -/
  | dtld (x : Reg)
  /-- `LDDT Vx`, word 0xFx15 (45_timers.md R95) -/
  | lddt (x : Reg)
  /-- `LDST Vx`, word 0xFx18 (45_timers.md R96) -/
  | ldst (x : Reg)
  /-- `ADDI Vx`, word 0xFx1E (43_index_memory.md R82) -/
  | addi (x : Reg)
  /-- `LDF Vx`, word 0xFx29 (43_index_memory.md R83) -/
  | ldf (x : Reg)
  /-- `LDB Vx`, word 0xFx33 (43_index_memory.md R84) -/
  | ldb (x : Reg)
  /-- `LDRM Vx`, word 0xFx55 (43_index_memory.md R85); x is also the count of registers moved -/
  | ldrm (x : Reg)
  /-- `LDV Vx`, word 0xFx65 (43_index_memory.md R86); x is also the count of registers moved -/
  | ldv (x : Reg)
  deriving DecidableEq, Repr

/-- The instruction's mnemonic, as the opcode table and 30_encoding.md R57 spell it. -/
def Instr.mnemonic : Instr → String
  | .cls => "CLS"
  | .ret => "RET"
  | .jp _ => "JP"
  | .call _ => "CALL"
  | .se _ _ => "SE"
  | .sne _ _ => "SNE"
  | .ld _ _ => "LD"
  | .add _ _ => "ADD"
  | .ldr _ _ => "LDR"
  | .and _ _ => "AND"
  | .xor _ _ => "XOR"
  | .addc _ _ => "ADDC"
  | .sub _ _ => "SUB"
  | .ldi _ => "LDI"
  | .rnd _ _ => "RND"
  | .drw _ _ _ => "DRW"
  | .dtld _ => "DTLD"
  | .lddt _ => "LDDT"
  | .ldst _ => "LDST"
  | .addi _ => "ADDI"
  | .ldf _ => "LDF"
  | .ldb _ => "LDB"
  | .ldrm _ => "LDRM"
  | .ldv _ => "LDV"

end Sys2Proof
end

