-- ==== Sys2Proof/Machine/Dispatch.lean ====
section
/-!
DEFINITION. Execute(inst) of spec/40_sequencer.md R58: one arm per instruction of spec/opcode_table.json.
-/
namespace Sys2Proof.Machine

/-- Execute, on the state after the fetch, the advance of PC and the tick (40_sequencer.md R58). -/
def exec (i : Instr) (s : State) : Host.Outcome State Fault Refusal :=
  match i with
  | .cls => Sys2Proof.Machine.execCls s
  | .ret => Sys2Proof.Machine.execRet s
  | .jp addr => Sys2Proof.Machine.execJp addr s
  | .call addr => Sys2Proof.Machine.execCall addr s
  | .se x kk => Sys2Proof.Machine.execSe x kk s
  | .sne x kk => Sys2Proof.Machine.execSne x kk s
  | .ld x kk => Sys2Proof.Machine.execLd x kk s
  | .add x kk => Sys2Proof.Machine.execAdd x kk s
  | .ldr x y => Sys2Proof.Machine.execLdr x y s
  | .and x y => Sys2Proof.Machine.execAnd x y s
  | .xor x y => Sys2Proof.Machine.execXor x y s
  | .addc x y => Sys2Proof.Machine.execAddc x y s
  | .sub x y => Sys2Proof.Machine.execSub x y s
  | .ldi addr => Sys2Proof.Machine.execLdi addr s
  | .rnd x kk => Sys2Proof.Machine.execRnd x kk s
  | .drw x y n => Sys2Proof.Machine.execDrw x y n s
  | .dtld x => Sys2Proof.Machine.execDtld x s
  | .lddt x => Sys2Proof.Machine.execLddt x s
  | .ldst x => Sys2Proof.Machine.execLdst x s
  | .addi x => Sys2Proof.Machine.execAddi x s
  | .ldf x => Sys2Proof.Machine.execLdf x s
  | .ldb x => Sys2Proof.Machine.execLdb x s
  | .ldrm x => Sys2Proof.Machine.execLdrm x s
  | .ldv x => Sys2Proof.Machine.execLdv x s

end Sys2Proof.Machine
end

