-- ==== Sys2Proof/WellFormed.lean ====
section
/-!
DEFINITION. Which instruction words are well formed: those that match a row of spec/opcode_table.json (its `match` and
`mask`, the same patterns as spec/30_encoding.md R50). The table stands here as data, apart from the decoder, so that the
two can be held against each other. An `Instr` needs no check of its own: each operand's type is exactly the range the
spec makes legal (30_encoding.md R51), so no ill-formed instruction can be written; what can be ill formed is a WORD.
-/
namespace Sys2Proof

/-- One row of spec/opcode_table.json: a word is this instruction when its bits under `mask` are `pattern`. -/
structure OpcodeRow where
  mnemonic : String
  pattern : Word
  mask : Word
  deriving DecidableEq, Repr

/-- The row takes the word `w`. -/
def OpcodeRow.takes (r : OpcodeRow) (w : Word) : Bool :=
  w &&& r.mask == r.pattern

/-- spec/opcode_table.json, rows in its order. Bits 11:8 of CLS and RET are outside the mask (30_encoding.md R54). -/
def opcodeTable : List OpcodeRow :=
  [ ⟨"CLS", 0x00E0, 0xF0FF⟩, ⟨"RET", 0x00EE, 0xF0FF⟩, ⟨"JP", 0x1000, 0xF000⟩, ⟨"CALL", 0x2000, 0xF000⟩,
    ⟨"SE", 0x3000, 0xF000⟩, ⟨"SNE", 0x4000, 0xF000⟩, ⟨"LD", 0x6000, 0xF000⟩, ⟨"ADD", 0x7000, 0xF000⟩ ] ++
  [ ⟨"LDR", 0x8000, 0xF00F⟩, ⟨"AND", 0x8002, 0xF00F⟩, ⟨"XOR", 0x8003, 0xF00F⟩, ⟨"ADDC", 0x8004, 0xF00F⟩,
    ⟨"SUB", 0x8005, 0xF00F⟩, ⟨"LDI", 0xA000, 0xF000⟩, ⟨"RND", 0xC000, 0xF000⟩, ⟨"DRW", 0xD000, 0xF000⟩ ] ++
  [ ⟨"DTLD", 0xF007, 0xF0FF⟩, ⟨"LDDT", 0xF015, 0xF0FF⟩, ⟨"LDST", 0xF018, 0xF0FF⟩, ⟨"ADDI", 0xF01E, 0xF0FF⟩,
    ⟨"LDF", 0xF029, 0xF0FF⟩, ⟨"LDB", 0xF033, 0xF0FF⟩, ⟨"LDRM", 0xF055, 0xF0FF⟩, ⟨"LDV", 0xF065, 0xF0FF⟩ ]

/-- A word is well formed when some row of the opcode table takes it; every other word is the Unknown space
(30_encoding.md R56). -/
def wordWellFormed (w : Word) : Bool :=
  opcodeTable.any (·.takes w)

end Sys2Proof
end

