-- ==== Sys2Proof/Decode.lean ====
section
/-!
DEFINITION. The decoder of spec/30_encoding.md R52, total on every pair of bytes, and after it the encoder, written from
the formats of R50. A word that no row of the table takes decodes to the Unknown sentinel, which keeps the two bytes
(R52, 40_sequencer.md R64).
-/
namespace Sys2Proof

/-- What a fetched word decodes to: an instruction of the table, or the sentinel `Unknown(high, low)`, which is not an
error of decoding (30_encoding.md R52, R56) and faults only when it is executed (40_sequencer.md R64). -/
inductive Decoded where
  | known (i : Instr)
  | unknown (high low : Byte)
  deriving DecidableEq, Repr

/-- "High nibble" of a byte, `byte[7:4]` (00_scope.md R7). -/
def highNibble (b : Byte) : Nibble := b.extractLsb' 4 4

/-- "Low nibble" of a byte, `byte[3:0]` (00_scope.md R7). -/
def lowNibble (b : Byte) : Nibble := b.extractLsb' 0 4

/-- `ins[15:8]`, the byte at PC (30_encoding.md R49, 20_memory.md R36). -/
def highByte (w : Word) : Byte := w.extractLsb' 8 8

/-- `ins[7:0]`, the byte at PC + 1 (30_encoding.md R49, 20_memory.md R36). -/
def lowByte (w : Word) : Byte := w.extractLsb' 0 8

/-- A four-bit field as the number of a register, or as a count (30_encoding.md R49). -/
def fieldReg (f : Nibble) : Reg := f.toFin

/-- `decode(high, low)`, in the order of 30_encoding.md R52. -/
def decode (high low : Byte) : Decoded :=
  let x := fieldReg (lowNibble high)
  let y := fieldReg (highNibble low)
  let n := lowNibble low
  let addr : Addr12 := lowNibble high ++ low
  match highNibble high with
  | 0x0#4 =>
    match low with
    | 0xE0#8 => .known .cls
    | 0xEE#8 => .known .ret
    | _ => .unknown high low
  | 0x1#4 => .known (.jp addr)
  | 0x2#4 => .known (.call addr)
  | 0x3#4 => .known (.se x low)
  | 0x4#4 => .known (.sne x low)
  | 0x6#4 => .known (.ld x low)
  | 0x7#4 => .known (.add x low)
  | 0x8#4 =>
    match n with
    | 0x0#4 => .known (.ldr x y)
    | 0x2#4 => .known (.and x y)
    | 0x3#4 => .known (.xor x y)
    | 0x4#4 => .known (.addc x y)
    | 0x5#4 => .known (.sub x y)
    | _ => .unknown high low
  | 0xA#4 => .known (.ldi addr)
  | 0xC#4 => .known (.rnd x low)
  | 0xD#4 => .known (.drw x y (fieldReg n))
  | 0xF#4 =>
    match low with
    | 0x07#8 => .known (.dtld x)
    | 0x15#8 => .known (.lddt x)
    | 0x18#8 => .known (.ldst x)
    | 0x1E#8 => .known (.addi x)
    | 0x29#8 => .known (.ldf x)
    | 0x33#8 => .known (.ldb x)
    | 0x55#8 => .known (.ldrm x)
    | 0x65#8 => .known (.ldv x)
    | _ => .unknown high low
  | _ => .unknown high low

/-- `decode` of a whole word `ins = high ++ low` (30_encoding.md R49). -/
def decodeWord (w : Word) : Decoded := decode (highByte w) (lowByte w)

/-- The instruction the decoder reads from a word whose bits are `w`, numbered as spec/opcode_table.json numbers them:
bit 0 is the least significant bit of the one 16-bit word (30_encoding.md R48), every bit from `nbits` on is 0, and the
word is laid out high byte first (20_memory.md R36; log entry 24). -/
def decodeTableWord (nbits w : Nat) : Option Instr :=
  match decodeWord (BitVec.ofNat 16 (w % 2 ^ nbits)) with
  | .known i => some i
  | .unknown _ _ => none

/-- The four-bit field of a register number or a count (30_encoding.md R49). -/
def regField (x : Fin 16) : Nibble := BitVec.ofFin x

/-- F_ADDR: `oooo aaaa aaaa aaaa` (30_encoding.md R50). -/
def packAddr (op : Nibble) (addr : Addr12) : Word := op ++ addr

/-- F_XKK, F_X and F_NONE: `oooo xxxx kkkk kkkk` (30_encoding.md R50). -/
def packXKK (op : Nibble) (x : Reg) (kk : Byte) : Word :=
  (op ++ regField x : Byte) ++ kk

/-- F_XYN and F_XY: `oooo xxxx yyyy nnnn` (30_encoding.md R50). -/
def packXYN (op : Nibble) (x y : Reg) (n : Nibble) : Word :=
  (op ++ regField x : Byte) ++ (regField y ++ n : Byte)

/-- The word of an instruction (30_encoding.md R50, R57); the ignored bits of CLS and RET are 0 (R57: "the assembler
emits x = 0"). -/
def encode : Instr → Word
  | .cls => packXKK 0x0 0 0xE0
  | .ret => packXKK 0x0 0 0xEE
  | .jp addr => packAddr 0x1 addr
  | .call addr => packAddr 0x2 addr
  | .se x kk => packXKK 0x3 x kk
  | .sne x kk => packXKK 0x4 x kk
  | .ld x kk => packXKK 0x6 x kk
  | .add x kk => packXKK 0x7 x kk
  | .ldr x y => packXYN 0x8 x y 0x0
  | .and x y => packXYN 0x8 x y 0x2
  | .xor x y => packXYN 0x8 x y 0x3
  | .addc x y => packXYN 0x8 x y 0x4
  | .sub x y => packXYN 0x8 x y 0x5
  | .ldi addr => packAddr 0xA addr
  | .rnd x kk => packXKK 0xC x kk
  | .drw x y n => packXYN 0xD x y (regField n)
  | .dtld x => packXKK 0xF x 0x07
  | .lddt x => packXKK 0xF x 0x15
  | .ldst x => packXKK 0xF x 0x18
  | .addi x => packXKK 0xF x 0x1E
  | .ldf x => packXKK 0xF x 0x29
  | .ldb x => packXKK 0xF x 0x33
  | .ldrm x => packXKK 0xF x 0x55
  | .ldv x => packXKK 0xF x 0x65

end Sys2Proof
end

