-- ==== Sys2Proof/Machine/Ports.lean ====
section
/-!
DEFINITION. The ports through which the host meets the core, between steps only (spec/60_exceptions.md R110, R115): reset
with a ROM image (spec/70_reset_and_hazards.md R119, R121), the keypad (R112), the framebuffer export (R111), the sound
output (R113) and the fault latch (spec/10_state.md R30). The step port is Step.lean's `step`; rnd_in is the free value
that RND takes (Ops.lean's `randomByte`). No move here writes registers, I, PC, the stack, the timers or memory, but
for reset.
-/
namespace Sys2Proof.Machine

/-- The ROM's bytes at `a`, `a + 1`, ... (70_reset_and_hazards.md R119, the last loop). -/
def loadBytes (a : Nat) : List Byte → Memory → Memory
  | [], m => m
  | b :: bs, m => loadBytes (a + 1) bs (Memory.write m a b)

/-- Reset(rom), in the order of 70_reset_and_hazards.md R119. The stack entries are left unspecified there: they keep what
they hold, and so does the model's count of random bytes (log entry 21). A ROM over 3584 bytes raises LOAD_TOO_LARGE and
no byte of it is copied (60_exceptions.md R101). -/
def portReset (rom : List Byte) (s : State) : State :=
  let clear := { State.reset with stk := s.stk, rndCount := s.rndCount }
  if Config.maxRom < rom.length then raiseAt 0x0200 .loadTooLarge 0 clear
  else { clear with mem := loadBytes Config.progBase rom clear.mem }

/-- A keypad cell written (60_exceptions.md R112); an index outside 0..15 is refused and changes nothing (R115;
93_implementation_defined.md U17). HALTED is not tested: a key can be written on a halted core too, which R102 and R115
leave open. DESIGN CHOICE (log entry 27; unsafe). -/
def writeKey (b : Bool) (k : Nat) (s : State) : Result :=
  if h : k < 16 then .next { s with key := s.key.set k b h } else .refused (.keyIndex k)

/-- set_key(k) (60_exceptions.md R112). -/
def portSetKey (k : Nat) (s : State) : Result := writeKey true k s

/-- clear_key(k) (60_exceptions.md R112). -/
def portClearKey (k : Nat) (s : State) : Result := writeKey false k s

/-- fb_out: the pixel at column c, row r, as it stands between steps (60_exceptions.md R111). -/
def portFbOut (s : State) (c : Fin 64) (r : Fin 32) : Bool := s.pixel c r

/-- sound: 1 exactly when ST is not 0 (60_exceptions.md R113). -/
def portSound (s : State) : Bool := decide (s.st ≠ 0)

/-- halted (10_state.md R30). -/
def portHalted (s : State) : Bool := s.halted

/-- fault_code: the 3-bit code of 60_exceptions.md R97. -/
def FaultCode.code : FaultCode → BitVec 3
  | .none => 0
  | .illegalInstruction => 1
  | .stackUnderflow => 2
  | .stackOverflow => 3
  | .memRange => 4
  | .loadTooLarge => 5

/-- fault_code (10_state.md R30). -/
def portFaultCode (s : State) : BitVec 3 := s.faultCode.code

/-- fault_pc (10_state.md R30). -/
def portFaultPc (s : State) : Word := s.faultPc

/-- fault_info (10_state.md R30). -/
def portFaultInfo (s : State) : Word := s.faultInfo

/-- The good end of a run, as the host detects it: PC = a with the word at a equal to 0x1000 + a, a <= 0xFFE
(70_reset_and_hazards.md R127). A halted core is "never a good end" (R127), whatever its PC and memory hold. The core
itself does not stop at a self-loop. -/
def selfLoop (s : State) : Bool :=
  !s.halted && decide (s.pc.toNat ≤ 0xFFE) &&
    decide ((Memory.read s.mem s.pc.toNat ++ Memory.read s.mem (s.pc.toNat + 1) : Word) = 0x1000 + s.pc)

/-- The word `w` where the next fetch reads it: high byte at PC, low byte at PC + 1 (20_memory.md R36), and nothing else;
only addresses that exist are written (R39). -/
def placeWord (w : Word) (s : State) : State :=
  if s.pc.toNat + 1 < Config.memSize then
    { s with mem := Memory.write (Memory.write s.mem s.pc.toNat (highByte w)) (s.pc.toNat + 1) (lowByte w) }
  else s

end Sys2Proof.Machine
end

