-- ==== Sys2Proof/Machine/Sequencer.lean ====
section
/-!
DEFINITION. The parts of the step around Execute (spec/40_sequencer.md R58): the fetch, the tick and the Unknown sentinel.
-/
namespace Sys2Proof.Machine

/-- The fetch: PC and then PC + 1 are checked before either byte is used (20_memory.md R39); a fetch that faults leaves PC
and the timers as they are (40_sequencer.md R59). High byte at the lower address (20_memory.md R36); PC advances by 2. -/
def fetch (s : State) : Except State (Byte × Byte × State) :=
  let cur := s.pc.toNat
  if Config.memSize ≤ cur then .error (raiseAt s.pc .memRange s.pc s)
  else if Config.memSize ≤ cur + 1 then .error (raiseAt s.pc .memRange (s.pc + 1) s)
  else .ok (Memory.read s.mem cur, Memory.read s.mem (cur + 1), { s with pc := s.pc + 2 })

/-- A timer decremented toward zero, never below (10_state.md R27). -/
def countDown (t : Byte) : Byte := if t = 0 then 0 else t - 1

/-- Tick(): both timers count down (60_exceptions.md R108). -/
def tick (s : State) : State := { s with dt := countDown s.dt, st := countDown s.st }

/-- Execute(Unknown(high, low)): ILLEGAL_INSTRUCTION with the word (40_sequencer.md R64, 60_exceptions.md R98). -/
def execUnknown (high low : Byte) (s : State) : Result :=
  .next (raise .illegalInstruction (high ++ low) s)

end Sys2Proof.Machine
end

