-- ==== Sys2Proof/Machine/Step.lean ====
section
/-!
DEFINITION. One step of the core (spec/40_sequencer.md R58): fetch, decode, tick, Execute, in that order.
-/
namespace Sys2Proof.Machine

/-- Step(). A halted core has no step (60_exceptions.md R102; log entry 1). A fault raised by the step is the next state,
halted. -/
def step (s : State) : Host.Outcome State Fault Refusal :=
  if s.halted then .fault (.halted s.faultCode s.faultPc s.faultInfo)
  else
    match fetch s with
    | .error h => .next h
    | .ok (high, low, s') =>
      match decode high low with
      | .known i => exec i (tick s')
      | .unknown h l => execUnknown h l (tick s')

/-- `s` with a word stored where `step` fetches its next instruction: the word stands for a ROM that holds it there
(70_reset_and_hazards.md R121; log entry 20). Bits from `nbits` on are 0 (log entry 24). -/
def State.withFetchWord (s : State) (nbits w : Nat) : State :=
  placeWord (BitVec.ofNat 16 (w % 2 ^ nbits)) s

end Sys2Proof.Machine
end

