-- ==== Sys2Proof/Safety.lean ====
section
/-!
DEFINITION. The terms the statements use: the pieces of state and what it is that only some of them change (frames), what
a fault leaves, when an instruction runs without a fault, what a drawn sprite looks like, and the invariants.
-/
namespace Sys2Proof

open Sys2Proof.Machine

/-- One piece of the state (spec/10_state.md R17, each register, cell and pixel apart). -/
inductive Part where
  | reg (r : Reg)
  | i
  | pc
  | sp
  | stk (k : Fin 16)
  | dt
  | st
  | pixel (c : Fin 64) (r : Fin 32)
  | key (k : Fin 16)
  | halted
  | faultCode
  | faultPc
  | faultInfo
  | mem (a : Nat)
  | rnd
  deriving DecidableEq, Repr

/-- The piece holds in `t` what it holds in `s`; memory is compared byte by byte, as it reads. -/
def Part.same (s t : State) : Part → Prop
  | .reg r => t.getV r = s.getV r
  | .i => t.i = s.i
  | .pc => t.pc = s.pc
  | .sp => t.sp = s.sp
  | .stk k => t.stk[k] = s.stk[k]
  | .dt => t.dt = s.dt
  | .st => t.st = s.st
  | .pixel c r => t.pixel c r = s.pixel c r
  | .key k => t.key[k] = s.key[k]
  | .halted => t.halted = s.halted
  | .faultCode => t.faultCode = s.faultCode
  | .faultPc => t.faultPc = s.faultPc
  | .faultInfo => t.faultInfo = s.faultInfo
  | .mem a => Memory.read t.mem a = Memory.read s.mem a
  | .rnd => t.rndCount = s.rndCount

/-- FRAME: every piece of state outside `ch` is in `t` as it is in `s`. -/
def OnlyChanges (ch : Part → Prop) (s t : State) : Prop := ∀ p, ¬ ch p → p.same s t

/-- The four fields of the fault latch (10_state.md R30). -/
def Part.isLatch (p : Part) : Prop := p ∈ [Part.halted, .faultCode, .faultPc, .faultInfo]

/-- `t` holds the latch that `raise Fault(code, info)` sets at fetch address `cur` (60_exceptions.md R102). -/
def Faulted (code : FaultCode) (cur info : Word) (t : State) : Prop :=
  t.halted = true ∧ t.faultCode = code ∧ t.faultPc = cur ∧ t.faultInfo = info

/-- The first address out of range of an access that starts at `a` and goes up (20_memory.md R39: `a` itself when it is
out of range, else exactly 0x1000). -/
def firstOutOfRange (a : Word) : Word := if 0x1000 ≤ a.toNat then a else 0x1000

/-- What the two bytes at PC and PC + 1 decode to (20_memory.md R36, 30_encoding.md R52). -/
abbrev decodedAtPc (s : State) : Decoded :=
  decode (Memory.read s.mem s.pc.toNat) (Memory.read s.mem (s.pc.toNat + 1))

/-- When an instruction executes without a fault (70_reset_and_hazards.md R125): RET on a stack that is not empty, CALL on
one that is not full, every data access below 0x1000 (no access, no condition). -/
def Instr.runsIn (s : State) : Instr → Prop
  | .ret => 0 < s.sp.val
  | .call _ => s.sp.val < 16
  | .drw _ _ n => n = 0 ∨ s.i.toNat + n.val ≤ 0x1000
  | .ldb _ => s.i.toNat + 3 ≤ 0x1000
  | .ldrm x => x = 0 ∨ s.i.toNat + x.val ≤ 0x1000
  | .ldv x => x = 0 ∨ s.i.toNat + x.val ≤ 0x1000
  | _ => True

/-- The one cause an instruction can raise (60_exceptions.md R104); `none` for one that raises nothing. -/
def Instr.cause : Instr → FaultCode
  | .ret => .stackUnderflow
  | .call _ => .stackOverflow
  | .drw _ _ _ => .memRange
  | .ldb _ => .memRange
  | .ldrm _ => .memRange
  | .ldv _ => .memRange
  | _ => .none

/-- The general registers an instruction may write (10_state.md R20, the column "writes"; VF of ADDC, SUB and DRW is the
flag of R21). -/
def Instr.mayWriteReg : Instr → Reg → Prop
  | .ld x _, r => r = x
  | .add x _, r => r = x
  | .ldr x _, r => r = x
  | .and x _, r => r = x
  | .xor x _, r => r = x
  | .rnd x _, r => r = x
  | .dtld x, r => r = x
  | .addc x _, r => r = x ∨ r = 15
  | .sub x _, r => r = x ∨ r = 15
  | .drw _ _ n, r => n ≠ 0 ∧ r = 15
  | .ldv x, r => r < x
  | _, _ => False

/-- (c, r) is the framebuffer pixel of column offset `dc` and sprite row `dr` of a sprite at (cx, cy) (44_display.md
R88). -/
def isSpritePixel (cx cy : Byte) (dc dr : Nat) (c : Fin 64) (r : Fin 32) : Prop :=
  c.val = (cx.toNat + dc) % 64 ∧ r.val = (cy.toNat + dr) % 32

/-- The first `m` rows of the sprite at I, drawn at (cx, cy), have taken `s` to `t` (44_display.md R87, R88, R90, R92):
each sprite bit is XOR-ed into its pixel; VF is the collision bit of the last bit processed, the least significant of row
m - 1; with no row processed VF is not written. -/
def RowsDrawn (cx cy : Byte) (m : Nat) (s t : State) : Prop :=
  (∀ dr < m, ∀ dc < 8, ∀ c r, isSpritePixel cx cy dc dr c r →
    t.pixel c r = (s.pixel c r ^^ (Memory.read s.mem (s.i.toNat + dr)).getLsbD (7 - dc))) ∧
  (∀ last, m = last + 1 → ∀ c r, isSpritePixel cx cy 7 last c r →
    t.getV 15 = if (Memory.read s.mem (s.i.toNat + last)).getLsbD 0 && s.pixel c r then 1 else 0)

/-- The pieces of state that drawing the first `m` rows at (cx, cy) may change: their pixels, and VF when m >= 1. -/
def drawnParts (cx cy : Byte) (m : Nat) (p : Part) : Prop :=
  (0 < m ∧ p = .reg 15) ∨ ∃ dr < m, ∃ dc < 8, ∃ c r, isSpritePixel cx cy dc dr c r ∧ p = .pixel c r

/-- INVARIANT: the memory list is canonical (log entry 19). -/
def MemoryCanonical (s : State) : Prop := Memory.wf s.mem

/-- INVARIANT: PC never exceeds 0x1002, and no stack entry in use exceeds 0x1000 (10_state.md R25). -/
def PcBounded (s : State) : Prop :=
  s.pc.toNat ≤ 0x1002 ∧ ∀ k : Fin 16, k.val < s.sp.val → s.stk[k].toNat ≤ 0x1000

/-- INVARIANT: the latch is clear while the core is not halted, and holds a cause once it is (10_state.md R30). -/
def LatchConsistent (s : State) : Prop :=
  (s.halted = false → s.faultCode = .none ∧ s.faultPc = 0 ∧ s.faultInfo = 0) ∧
  (s.halted = true → s.faultCode ≠ .none)

end Sys2Proof
end

