-- ==== Sys2Proof/Certificates/Slice0/Obligations.lean ====
section
/-!
DEFINITION. The statements for the provers. `exec i s` is Execute, on the state after the fetch and the tick
(spec/40_sequencer.md R58), so `s.pc` is there the address of the next word (CUR + 2) and a fault records `s.pc - 2`.
Every statement about an instruction starts with its encoding, for every operand, and says in `OnlyChanges` what the
instruction leaves as it was, memory byte by byte.
-/

open Sys2Proof Sys2Proof.Machine

/-! ## Encoding (spec/30_encoding.md) -/

/-- Decoding the encoding of an instruction gives it back, for every instruction and every operand (30_encoding.md
section 3). -/
def Obligations.DecodeInvertsEncode : Prop :=
  ∀ i : Instr, decodeWord (encode i) = .known i

/-- Encoding what a word decodes to gives the word back, bit for bit, but for the ignored bits 11:8 of CLS and RET, which
come back 0 (30_encoding.md R54, R57). -/
def Obligations.EncodeInvertsDecode : Prop :=
  ∀ (w : Word) (i : Instr), decodeWord w = .known i →
    encode i = if i = .cls ∨ i = .ret then w &&& 0xF0FF else w

/-- The decoder reads a word as the instruction of a row exactly when the row's mask and pattern take the word
(opcode_table.json; 30_encoding.md section 3). -/
def Obligations.DecoderAgreesWithOpcodeTable : Prop :=
  ∀ w : Word, ∀ row ∈ opcodeTable,
    (row.takes w = true ↔ ∃ i, decodeWord w = .known i ∧ i.mnemonic = row.mnemonic)

/-- The words that decode to Unknown, with their two bytes kept, are exactly the Unknown space of 30_encoding.md section
4. -/
def Obligations.UnknownSpaceIsExact : Prop :=
  ∀ w : Word,
    let op := w.toNat / 0x1000
    let low := w.toNat % 0x100
    let n := w.toNat % 0x10
    (decodeWord w = .unknown (highByte w) (lowByte w) ↔
      (op = 0x0 ∧ low ∉ [0xE0, 0xEE]) ∨ op ∈ [0x5, 0x9, 0xB, 0xE] ∨ (op = 0x8 ∧ n ∉ [0, 2, 3, 4, 5]) ∨
        (op = 0xF ∧ low ∉ [0x07, 0x15, 0x18, 0x1E, 0x29, 0x33, 0x55, 0x65]))

/-- Words written out from the spec: the source's two decoding examples (30_encoding.md R55), and one of each other
format and of the Unknown space (95_test_vectors.md, Decoding). -/
def Obligations.SampleWordsDecode : Prop :=
  decode 0x61 0x1F = .known (.ld 1 0x1F) ∧ decode 0x8A 0x12 = .known (.and 0xA 1) ∧
  decode 0x05 0xE0 = .known .cls ∧ decode 0x0A 0xEE = .known .ret ∧ decode 0x1A 0xBC = .known (.jp 0xABC) ∧
  decode 0x8A 0xB5 = .known (.sub 0xA 0xB) ∧ decode 0xD1 0x2F = .known (.drw 1 2 15) ∧
  decode 0xFF 0x65 = .known (.ldv 0xF) ∧ decode 0x81 0x21 = .unknown 0x81 0x21

/-! ## The step (spec/40_sequencer.md) -/

/-- A STEP RUNS THE DECODED INSTRUCTION: when the bytes at PC and PC + 1 exist and decode to an instruction, the step is
exec of it on the state with PC advanced by 2 and both timers ticked (40_sequencer.md section 1). -/
def Obligations.StepRunsDecodedInstruction : Prop :=
  ∀ (s : State) (i : Instr), s.halted = false → s.pc.toNat + 1 < 0x1000 →
    decodedAtPc s = .known i →
    step s = exec i (tick { s with pc := s.pc + 2 })

/-- A fetch that faults sets the latch and changes nothing else: PC keeps the value CUR, the timers are not decremented,
nothing is decoded (40_sequencer.md R59). The recorded address is PC where that is out of range, else PC + 1. -/
def Obligations.FetchFaultLeavesPcAndTimers : Prop :=
  ∀ s : State, s.halted = false → 0x1000 ≤ s.pc.toNat + 1 →
    ∃ t, step s = .next t ∧ Faulted .memRange s.pc (if 0x1000 ≤ s.pc.toNat then s.pc else s.pc + 1) t ∧
      OnlyChanges Part.isLatch s t

/-- Executing an Unknown word faults with ILLEGAL_INSTRUCTION and the word; PC has advanced and the tick has run
(40_sequencer.md R64). -/
def Obligations.UnknownWordFaults : Prop :=
  ∀ (s : State) (high low : Byte), s.halted = false → s.pc.toNat + 1 < 0x1000 →
    decodedAtPc s = .unknown high low →
    ∃ t, step s = .next t ∧ Faulted .illegalInstruction s.pc (high ++ low) t ∧ t.pc = s.pc + 2 ∧
      t.dt.toNat = s.dt.toNat - 1 ∧ t.st.toNat = s.st.toNat - 1 ∧
      OnlyChanges (fun p => p.isLatch ∨ p ∈ [Part.pc, .dt, .st]) s t

/-- A halted core has no step (40_sequencer.md section 1, 60_exceptions.md section 2). THE MODEL'S CHOICE (log entry 1):
the step then answers the fault `halted`, which reports the latch. -/
def Obligations.HaltedCoreHasNoStep : Prop :=
  ∀ s : State, s.halted = true → step s = .fault (.halted s.faultCode s.faultPc s.faultInfo)

/-- Both timers are 0 at reset and count down by one, stopping at 0, exactly once in every step that gets past the fetch:
before the instruction's effect, and so whatever it executes, but for the timer that LDDT or LDST then writes. There is
no tick in a step whose fetch faults, and none while halted (60_exceptions.md R108). -/
def Obligations.TimersTickOncePerExecutedInstruction : Prop :=
  (State.reset.dt = 0 ∧ State.reset.st = 0) ∧
  (∀ s : State, (tick s).dt.toNat = s.dt.toNat - 1 ∧ (tick s).st.toNat = s.st.toNat - 1 ∧
    OnlyChanges (· ∈ [Part.dt, .st]) s (tick s)) ∧
  (∀ s t : State, s.halted = false → s.pc.toNat + 1 < 0x1000 → step s = .next t →
    (∀ i, decodedAtPc s = .known i → exec i (tick { s with pc := s.pc + 2 }) = .next t) ∧
    ((∀ x, decodedAtPc s ≠ .known (.lddt x)) → t.dt.toNat = s.dt.toNat - 1) ∧
    ((∀ x, decodedAtPc s ≠ .known (.ldst x)) → t.st.toNat = s.st.toNat - 1)) ∧
  (∀ s t : State, 0x1000 ≤ s.pc.toNat + 1 → step s = .next t → t.dt = s.dt ∧ t.st = s.st) ∧
  (∀ s t : State, s.halted = true → step s ≠ .next t)

/-- A core that is not halted always answers the next state to a step request: there is no halt instruction and no
terminal state (40_sequencer.md section 1), and a fault is a next state too. -/
def Obligations.UnhaltedCoreAlwaysSteps : Prop :=
  ∀ s : State, s.halted = false → ∃ t, step s = .next t

/-- The self-loop by which a program waits, `JP` to its own address, is a fixed point of the step but for the tick
(40_sequencer.md section 1); and it is the good end of a run, which a halted core never is (70_reset_and_hazards.md section
4). -/
def Obligations.SelfLoopOnlyTicks : Prop :=
  (∀ s : State, selfLoop s = true → step s = .next (tick s)) ∧
  (∀ s : State, s.halted = true → selfLoop s = false)

/-! ## Control transfer (spec/41_control_flow.md) -/

/-- RET (41_control_flow.md R66). -/
def Obligations.RetPopsPc : Prop :=
  (∀ x : Nibble, decode (0x0#4 ++ x) 0xEE = .known .ret) ∧
  (∀ (s : State) (k : Fin 16), s.sp.val = k.val + 1 →
    ∃ t, exec .ret s = .next t ∧ t.pc = s.stk[k] ∧ t.sp.val = k.val ∧ OnlyChanges (· ∈ [Part.pc, .sp]) s t) ∧
  (∀ s : State, s.sp.val = 0 →
    ∃ t, exec .ret s = .next t ∧ Faulted .stackUnderflow (s.pc - 2) 0 t ∧ OnlyChanges Part.isLatch s t)

/-- JP addr (41_control_flow.md R67). -/
def Obligations.JpSetsPc : Prop :=
  (∀ addr : Addr12, decode (0x1#4 ++ addr.extractLsb' 8 4) (addr.extractLsb' 0 8) = .known (.jp addr)) ∧
  (∀ (addr : Addr12) (s : State),
    ∃ t, exec (.jp addr) s = .next t ∧ t.pc.toNat = addr.toNat ∧ OnlyChanges (· ∈ [Part.pc]) s t)

/-- CALL addr (41_control_flow.md R68). -/
def Obligations.CallPushesPc : Prop :=
  (∀ addr : Addr12, decode (0x2#4 ++ addr.extractLsb' 8 4) (addr.extractLsb' 0 8) = .known (.call addr)) ∧
  (∀ (addr : Addr12) (s : State) (k : Fin 16), s.sp.val = k.val →
    ∃ t, exec (.call addr) s = .next t ∧ t.stk[k] = s.pc ∧ t.sp.val = k.val + 1 ∧ t.pc.toNat = addr.toNat ∧
      OnlyChanges (· ∈ [Part.pc, .sp, .stk k]) s t) ∧
  (∀ (addr : Addr12) (s : State), s.sp.val = 16 →
    ∃ t, exec (.call addr) s = .next t ∧ Faulted .stackOverflow (s.pc - 2) 0 t ∧ OnlyChanges Part.isLatch s t)

/-- SE Vx, kk (41_control_flow.md R69). -/
def Obligations.SeSkipsWhenEqual : Prop :=
  ∀ (x : Reg) (kk : Byte), decode (0x3#4 ++ BitVec.ofNat 4 x.val) kk = .known (.se x kk) ∧
    ∀ s : State, ∃ t, exec (.se x kk) s = .next t ∧ t.pc = (if s.getV x = kk then s.pc + 2 else s.pc) ∧
      OnlyChanges (· ∈ [Part.pc]) s t

/-- SNE Vx, kk (41_control_flow.md R70). -/
def Obligations.SneSkipsWhenNotEqual : Prop :=
  ∀ (x : Reg) (kk : Byte), decode (0x4#4 ++ BitVec.ofNat 4 x.val) kk = .known (.sne x kk) ∧
    ∀ s : State, ∃ t, exec (.sne x kk) s = .next t ∧ t.pc = (if s.getV x = kk then s.pc else s.pc + 2) ∧
      OnlyChanges (· ∈ [Part.pc]) s t

/-- CALL then RET restores PC and SP: whatever PC the subroutine's RET is executed at, PC is again the address after the
CALL word (95_test_vectors.md E7). Only the stack entry used keeps the pushed value. -/
def Obligations.RetUndoesCall : Prop :=
  ∀ (addr : Addr12) (s : State) (k : Fin 16), s.sp.val = k.val →
    ∃ t, exec (.call addr) s = .next t ∧ ∀ p : Word,
      ∃ u, exec .ret { t with pc := p } = .next u ∧ u.pc = s.pc ∧ OnlyChanges (· ∈ [Part.stk k]) s u

/-! ## ALU (spec/42_alu.md) -/

/-- LD Vx, kk (42_alu.md R72). -/
def Obligations.LdLoadsImmediate : Prop :=
  ∀ (x : Reg) (kk : Byte), decode (0x6#4 ++ BitVec.ofNat 4 x.val) kk = .known (.ld x kk) ∧
    ∀ s : State, ∃ t, exec (.ld x kk) s = .next t ∧ t.getV x = kk ∧ OnlyChanges (· ∈ [Part.reg x]) s t

/-- ADD Vx, kk (42_alu.md R73). -/
def Obligations.AddWraps : Prop :=
  ∀ (x : Reg) (kk : Byte), decode (0x7#4 ++ BitVec.ofNat 4 x.val) kk = .known (.add x kk) ∧
    ∀ s : State, ∃ t, exec (.add x kk) s = .next t ∧ (t.getV x).toNat = ((s.getV x).toNat + kk.toNat) % 256 ∧
      OnlyChanges (· ∈ [Part.reg x]) s t

/-- LDR Vx, Vy (42_alu.md R74). -/
def Obligations.LdrCopiesRegister : Prop :=
  ∀ x y : Reg, decode (0x8#4 ++ BitVec.ofNat 4 x.val) (BitVec.ofNat 4 y.val ++ 0x0#4) = .known (.ldr x y) ∧
    ∀ s : State, ∃ t, exec (.ldr x y) s = .next t ∧ t.getV x = s.getV y ∧ OnlyChanges (· ∈ [Part.reg x]) s t

/-- AND Vx, Vy (42_alu.md R75), bit by bit. -/
def Obligations.AndIsBitwise : Prop :=
  ∀ x y : Reg, decode (0x8#4 ++ BitVec.ofNat 4 x.val) (BitVec.ofNat 4 y.val ++ 0x2#4) = .known (.and x y) ∧
    ∀ s : State, ∃ t, exec (.and x y) s = .next t ∧
      (∀ b, (t.getV x).getLsbD b = ((s.getV x).getLsbD b && (s.getV y).getLsbD b)) ∧
      OnlyChanges (· ∈ [Part.reg x]) s t

/-- XOR Vx, Vy (42_alu.md R76), bit by bit. -/
def Obligations.XorIsBitwise : Prop :=
  ∀ x y : Reg, decode (0x8#4 ++ BitVec.ofNat 4 x.val) (BitVec.ofNat 4 y.val ++ 0x3#4) = .known (.xor x y) ∧
    ∀ s : State, ∃ t, exec (.xor x y) s = .next t ∧
      (∀ b, (t.getV x).getLsbD b = ((s.getV x).getLsbD b ^^ (s.getV y).getLsbD b)) ∧
      OnlyChanges (· ∈ [Part.reg x]) s t

/-- ADDC Vx, Vy (42_alu.md R77): on overflow VF <- 1 and Vx is not written (with x = F, VF ends 1); otherwise Vx receives
the sum and VF is not written (with x = F, VF ends as the sum). -/
def Obligations.AddcDiscardsOnOverflow : Prop :=
  ∀ x y : Reg, decode (0x8#4 ++ BitVec.ofNat 4 x.val) (BitVec.ofNat 4 y.val ++ 0x4#4) = .known (.addc x y) ∧
    (∀ s : State, 256 ≤ (s.getV x).toNat + (s.getV y).toNat →
      ∃ t, exec (.addc x y) s = .next t ∧ t.getV 15 = 1 ∧ OnlyChanges (· ∈ [Part.reg 15]) s t) ∧
    (∀ s : State, (s.getV x).toNat + (s.getV y).toNat < 256 →
      ∃ t, exec (.addc x y) s = .next t ∧ (t.getV x).toNat = (s.getV x).toNat + (s.getV y).toNat ∧
        OnlyChanges (· ∈ [Part.reg x]) s t)

/-- SUB Vx, Vy (42_alu.md R78): when Vx > Vy, VF <- 1 and then Vx <- Vx - Vy (with x = F, VF ends as the difference);
otherwise nothing changes. -/
def Obligations.SubActsOnlyWithoutBorrow : Prop :=
  ∀ x y : Reg, decode (0x8#4 ++ BitVec.ofNat 4 x.val) (BitVec.ofNat 4 y.val ++ 0x5#4) = .known (.sub x y) ∧
    (∀ s : State, (s.getV y).toNat < (s.getV x).toNat →
      ∃ t, exec (.sub x y) s = .next t ∧ (t.getV x).toNat = (s.getV x).toNat - (s.getV y).toNat ∧
        (x ≠ 15 → t.getV 15 = 1) ∧ OnlyChanges (· ∈ [Part.reg x, .reg 15]) s t) ∧
    (∀ s : State, (s.getV x).toNat ≤ (s.getV y).toNat → exec (.sub x y) s = .next s)

/-- RND Vx, kk (42_alu.md section 2): a byte r is drawn and Vx <- r & kk; nothing is said of r. THE MODEL'S CHOICE (log
entry 2): r depends on the state alone, not on the register or the mask, and drawing it may change the model's own count
of bytes, which the frame names; the spec promises no law of r. -/
def Obligations.RndMasksADrawnByte : Prop :=
  (∀ (x : Reg) (kk : Byte), decode (0xC#4 ++ BitVec.ofNat 4 x.val) kk = .known (.rnd x kk)) ∧
  (∀ s : State, ∃ r : Byte, ∀ (x : Reg) (kk : Byte),
    ∃ t, exec (.rnd x kk) s = .next t ∧ t.getV x = r &&& kk ∧ OnlyChanges (· ∈ [Part.reg x, .rnd]) s t)

/-- RND takes exactly one byte from rnd_in, also when kk is 0, and no other instruction takes one (60_exceptions.md
section 5). THE MODEL'S CHOICE (log entry 2): the byte is the free value `Config.rndIn` of a count the state holds, and
taking it advances the count; the statement holds for every value of both. -/
def Obligations.OnlyRndTakesRandomBytes : Prop :=
  (∀ (x : Reg) (kk : Byte) (s : State),
    ∃ t, exec (.rnd x kk) s = .next t ∧ t.getV x = Config.rndIn s.rndCount &&& kk ∧
      t.rndCount = s.rndCount + 1) ∧
  (∀ (i : Instr) (s t : State), (∀ x kk, i ≠ .rnd x kk) → exec i s = .next t → t.rndCount = s.rndCount)

/-! ## Index register and memory (spec/43_index_memory.md) -/

/-- LDI addr (43_index_memory.md R81). -/
def Obligations.LdiLoadsIndex : Prop :=
  (∀ addr : Addr12, decode (0xA#4 ++ addr.extractLsb' 8 4) (addr.extractLsb' 0 8) = .known (.ldi addr)) ∧
  (∀ (addr : Addr12) (s : State),
    ∃ t, exec (.ldi addr) s = .next t ∧ t.i.toNat = addr.toNat ∧ OnlyChanges (· ∈ [Part.i]) s t)

/-- ADDI Vx (43_index_memory.md R82). -/
def Obligations.AddiWrapsIndex : Prop :=
  ∀ x : Reg, decode (0xF#4 ++ BitVec.ofNat 4 x.val) 0x1E = .known (.addi x) ∧
    ∀ s : State, ∃ t, exec (.addi x) s = .next t ∧ t.i.toNat = (s.i.toNat + (s.getV x).toNat) % 65536 ∧
      OnlyChanges (· ∈ [Part.i]) s t

/-- LDF Vx (43_index_memory.md R83). -/
def Obligations.LdfPointsAtGlyph : Prop :=
  ∀ x : Reg, decode (0xF#4 ++ BitVec.ofNat 4 x.val) 0x29 = .known (.ldf x) ∧
    ∀ s : State, ∃ t, exec (.ldf x) s = .next t ∧ t.i.toNat = (s.getV x).toNat * 5 ∧
      OnlyChanges (· ∈ [Part.i]) s t

/-- LDB Vx (43_index_memory.md R84): the digits of Vx, hundreds first, at I, I + 1, I + 2; where one of these is out of
range, the bytes before it are stored and MEM_RANGE is raised at the first that is out of range. -/
def Obligations.LdbStoresDecimalDigits : Prop :=
  ∀ x : Reg, decode (0xF#4 ++ BitVec.ofNat 4 x.val) 0x33 = .known (.ldb x) ∧
    (∀ s : State, s.i.toNat + 2 < 0x1000 →
      ∃ t, exec (.ldb x) s = .next t ∧
        (Memory.read t.mem s.i.toNat).toNat = (s.getV x).toNat / 100 ∧
        (Memory.read t.mem (s.i.toNat + 1)).toNat = (s.getV x).toNat / 10 % 10 ∧
        (Memory.read t.mem (s.i.toNat + 2)).toNat = (s.getV x).toNat % 10 ∧
        OnlyChanges (· ∈ [Part.mem s.i.toNat, .mem (s.i.toNat + 1), .mem (s.i.toNat + 2)]) s t) ∧
    (∀ s : State, 0x1000 ≤ s.i.toNat + 2 →
      ∃ t, exec (.ldb x) s = .next t ∧ Faulted .memRange (s.pc - 2) (firstOutOfRange s.i) t ∧
        (∀ k < 3, s.i.toNat + k < 0x1000 →
          (Memory.read t.mem (s.i.toNat + k)).toNat = (s.getV x).toNat / 10 ^ (2 - k) % 10) ∧
        OnlyChanges (fun p => p.isLatch ∨ ∃ k < 3, s.i.toNat + k < 0x1000 ∧ p = .mem (s.i.toNat + k)) s t)

/-- LDRM Vx (43_index_memory.md R85): V0..V(x-1) at I, I + 1, ...; where one of these addresses is out of range, the
registers before it are stored and MEM_RANGE is raised at the first that is out of range. With x = 0 nothing is stored
and nothing can fault. -/
def Obligations.LdrmStoresRegisters : Prop :=
  ∀ x : Reg, decode (0xF#4 ++ BitVec.ofNat 4 x.val) 0x55 = .known (.ldrm x) ∧
    (∀ s : State, x = 0 ∨ s.i.toNat + x.val ≤ 0x1000 →
      ∃ t, exec (.ldrm x) s = .next t ∧
        (∀ k : Reg, k < x → Memory.read t.mem (s.i.toNat + k.val) = s.getV k) ∧
        OnlyChanges (fun p => ∃ k : Reg, k < x ∧ p = .mem (s.i.toNat + k.val)) s t) ∧
    (∀ s : State, x ≠ 0 → 0x1000 < s.i.toNat + x.val →
      ∃ t, exec (.ldrm x) s = .next t ∧ Faulted .memRange (s.pc - 2) (firstOutOfRange s.i) t ∧
        (∀ k : Reg, k < x → s.i.toNat + k.val < 0x1000 → Memory.read t.mem (s.i.toNat + k.val) = s.getV k) ∧
        OnlyChanges (fun p => p.isLatch ∨
          ∃ k : Reg, k < x ∧ s.i.toNat + k.val < 0x1000 ∧ p = .mem (s.i.toNat + k.val)) s t)

/-- LDV Vx (43_index_memory.md R86): V0..V(x-1) from I, I + 1, ...; where one of these addresses is out of range, the
registers before it are loaded and MEM_RANGE is raised at the first that is out of range. With x = 0 nothing is loaded and
nothing can fault. -/
def Obligations.LdvLoadsRegisters : Prop :=
  ∀ x : Reg, decode (0xF#4 ++ BitVec.ofNat 4 x.val) 0x65 = .known (.ldv x) ∧
    (∀ s : State, x = 0 ∨ s.i.toNat + x.val ≤ 0x1000 →
      ∃ t, exec (.ldv x) s = .next t ∧
        (∀ k : Reg, k < x → t.getV k = Memory.read s.mem (s.i.toNat + k.val)) ∧
        OnlyChanges (fun p => ∃ k : Reg, k < x ∧ p = .reg k) s t) ∧
    (∀ s : State, x ≠ 0 → 0x1000 < s.i.toNat + x.val →
      ∃ t, exec (.ldv x) s = .next t ∧ Faulted .memRange (s.pc - 2) (firstOutOfRange s.i) t ∧
        (∀ k : Reg, k < x → s.i.toNat + k.val < 0x1000 → t.getV k = Memory.read s.mem (s.i.toNat + k.val)) ∧
        OnlyChanges (fun p => p.isLatch ∨ ∃ k : Reg, k < x ∧ s.i.toNat + k.val < 0x1000 ∧ p = .reg k) s t)

/-! ## Display (spec/44_display.md) -/

/-- CLS (44_display.md R91), whatever the ignored bits 11:8 hold. -/
def Obligations.ClsClearsFramebuffer : Prop :=
  (∀ x : Nibble, decode (0x0#4 ++ x) 0xE0 = .known .cls) ∧
  (∀ s : State, ∃ t, exec .cls s = .next t ∧ (∀ c r, t.pixel c r = false) ∧
    OnlyChanges (fun p => ∃ c r, p = .pixel c r) s t)

/-- DRW Vx, Vy, n (44_display.md R92): n rows are XOR-ed into the framebuffer at the coordinates read before any write,
and VF is the collision bit of the last sprite bit; where a row's address is out of range, the rows before it are drawn
and MEM_RANGE is raised at the first that is out of range. With n = 0 nothing is read and nothing changes. -/
def Obligations.DrwComposesSprite : Prop :=
  ∀ (x y : Reg) (n : Fin 16),
    decode (0xD#4 ++ BitVec.ofNat 4 x.val) (BitVec.ofNat 4 y.val ++ BitVec.ofNat 4 n.val) = .known (.drw x y n) ∧
    (∀ s : State, n = 0 ∨ s.i.toNat + n.val ≤ 0x1000 →
      ∃ t, exec (.drw x y n) s = .next t ∧ RowsDrawn (s.getV x) (s.getV y) n.val s t ∧
        OnlyChanges (drawnParts (s.getV x) (s.getV y) n.val) s t) ∧
    (∀ s : State, n ≠ 0 → 0x1000 < s.i.toNat + n.val →
      ∃ t, exec (.drw x y n) s = .next t ∧ Faulted .memRange (s.pc - 2) (firstOutOfRange s.i) t ∧
        RowsDrawn (s.getV x) (s.getV y) (0x1000 - s.i.toNat) s t ∧
        OnlyChanges (fun p => p.isLatch ∨ drawnParts (s.getV x) (s.getV y) (0x1000 - s.i.toNat) p) s t)

/-- Drawing the same sprite twice at the same place restores the framebuffer (44_display.md section 2; 95_test_vectors.md
E5, with its caveat: neither coordinate register is VF, which the first DRW writes). -/
def Obligations.DrawingTwiceRestores : Prop :=
  ∀ (x y : Reg) (n : Fin 16) (s : State), x ≠ 15 → y ≠ 15 → n = 0 ∨ s.i.toNat + n.val ≤ 0x1000 →
    ∃ t u, exec (.drw x y n) s = .next t ∧ exec (.drw x y n) t = .next u ∧ ∀ c r, u.pixel c r = s.pixel c r

/-! ## Timers (spec/45_timers.md) -/

/-- DTLD Vx (45_timers.md R94): Vx <- DT as Execute finds it. That it finds DT after the tick of its own step is said by
`TimerInstructionsSeeTheTick`. -/
def Obligations.DtldReadsDelayTimer : Prop :=
  ∀ x : Reg, decode (0xF#4 ++ BitVec.ofNat 4 x.val) 0x07 = .known (.dtld x) ∧
    ∀ s : State, ∃ t, exec (.dtld x) s = .next t ∧ t.getV x = s.dt ∧ OnlyChanges (· ∈ [Part.reg x]) s t

/-- LDDT Vx (45_timers.md R95). -/
def Obligations.LddtSetsDelayTimer : Prop :=
  ∀ x : Reg, decode (0xF#4 ++ BitVec.ofNat 4 x.val) 0x15 = .known (.lddt x) ∧
    ∀ s : State, ∃ t, exec (.lddt x) s = .next t ∧ t.dt = s.getV x ∧ OnlyChanges (· ∈ [Part.dt]) s t

/-- LDST Vx (45_timers.md R96); the sound output is on at once exactly when the value is not 0. -/
def Obligations.LdstSetsSoundTimer : Prop :=
  ∀ x : Reg, decode (0xF#4 ++ BitVec.ofNat 4 x.val) 0x18 = .known (.ldst x) ∧
    ∀ s : State, ∃ t, exec (.ldst x) s = .next t ∧ t.st = s.getV x ∧ (portSound t = true ↔ s.getV x ≠ 0) ∧
      OnlyChanges (· ∈ [Part.st]) s t

/-- Every timer instruction sees the timers after the tick of its own step: a whole step of DTLD reads the decremented
DT; the value that a whole step of LDDT or LDST leaves is not decremented by that step, and is decremented by the next
executed instruction, unless that one writes the timer again (45_timers.md R93). -/
def Obligations.TimerInstructionsSeeTheTick : Prop :=
  ∀ (s : State) (x : Reg), s.halted = false → s.pc.toNat + 1 < 0x1000 →
    (decodedAtPc s = .known (.dtld x) → ∃ t, step s = .next t ∧ t.dt.toNat = s.dt.toNat - 1 ∧ t.getV x = t.dt) ∧
    (decodedAtPc s = .known (.lddt x) → ∃ t, step s = .next t ∧ t.dt = s.getV x ∧
      ∀ u, t.pc.toNat + 1 < 0x1000 → step t = .next u → (∀ x', decodedAtPc t ≠ .known (.lddt x')) →
        u.dt.toNat = (s.getV x).toNat - 1) ∧
    (decodedAtPc s = .known (.ldst x) → ∃ t, step s = .next t ∧ t.st = s.getV x ∧
      ∀ u, t.pc.toNat + 1 < 0x1000 → step t = .next u → (∀ x', decodedAtPc t ≠ .known (.ldst x')) →
        u.st.toNat = (s.getV x).toNat - 1)

/-! ## The whole machine -/

/-- Every instruction completes, from every state that is not halted, without a fault exactly when the conditions of
70_reset_and_hazards.md section 3 hold; otherwise it halts with its one cause and its own address (60_exceptions.md section
2). -/
def Obligations.InstructionsFaultExactlyWhen : Prop :=
  ∀ (i : Instr) (s : State), s.halted = false →
    ∃ t, exec i s = .next t ∧ (t.halted = false ↔ i.runsIn s) ∧
      (t.halted = true → t.faultCode = i.cause ∧ t.faultPc = s.pc - 2)

/-- The general registers an instruction writes are at most those of 10_state.md section 2; LDV never writes VF. -/
def Obligations.OnlyNamedRegistersAreWritten : Prop :=
  ∀ (i : Instr) (s t : State) (r : Reg), exec i s = .next t → ¬ i.mayWriteReg r → t.getV r = s.getV r

/-- Each other piece of state is written by the instructions of 10_state.md section 1 and by no other: memory by LDB and
LDRM, the framebuffer by CLS and DRW, I by LDI, ADDI and LDF, PC (after the fetch) by JP, CALL, RET, SE and SNE, the stack
by CALL and RET, DT by LDDT, ST by LDST, the keypad by none. -/
def Obligations.EachStateHasItsWriters : Prop :=
  ∀ (i : Instr) (s t : State), exec i s = .next t →
    ((∀ x, i ≠ .ldb x ∧ i ≠ .ldrm x) → t.mem = s.mem) ∧
    ((i ≠ .cls ∧ ∀ x y n, i ≠ .drw x y n) → t.fb = s.fb) ∧
    ((∀ a x, i ≠ .ldi a ∧ i ≠ .addi x ∧ i ≠ .ldf x) → t.i = s.i) ∧
    ((i ≠ .ret ∧ ∀ a x kk, i ≠ .jp a ∧ i ≠ .call a ∧ i ≠ .se x kk ∧ i ≠ .sne x kk) → t.pc = s.pc) ∧
    ((i ≠ .ret ∧ ∀ a, i ≠ .call a) → t.sp = s.sp ∧ t.stk = s.stk) ∧
    ((∀ x, i ≠ .lddt x) → t.dt = s.dt) ∧
    ((∀ x, i ≠ .ldst x) → t.st = s.st) ∧
    t.key = s.key

/-- The keypad influences nothing: a step from a state with other keys gives the same next state, with those keys
(60_exceptions.md section 5: "so the keypad cannot change any other state"). THE MODEL'S CHOICE (log entry 2), on which
the comparison rests for RND: the byte from rnd_in is taken as the same in both steps, the two states having equal
counts. -/
def Obligations.KeypadInfluencesNothing : Prop :=
  ∀ (s t : State) (keys : Vector Bool 16), step s = .next t →
    t.key = s.key ∧ step { s with key := keys } = .next { t with key := keys }

/-- The sound timer is read by no instruction: a step from a state with another ST gives the same next state but for ST
(10_state.md section 7). THE MODEL'S CHOICE (log entry 2), on which the comparison rests for RND: the byte from rnd_in is
taken as the same in both steps, the two states having equal counts. -/
def Obligations.SoundTimerInfluencesNothing : Prop :=
  ∀ (s t : State) (v : Byte), step s = .next t → ∃ w, step { s with st := v } = .next { t with st := w }

/-- Every step keeps the memory canonical (log entry 19: the model's own form of 20_memory.md section 1). -/
def Obligations.StepKeepsMemoryCanonical : Prop :=
  ∀ s t : State, MemoryCanonical s → step s = .next t → MemoryCanonical t

/-- Every step keeps PC at most 0x1002 and the stack entries in use at most 0x1000, so PC never wraps (10_state.md section
5). -/
def Obligations.StepKeepsPcBounded : Prop :=
  ∀ s t : State, PcBounded s → step s = .next t → PcBounded t

/-- Every step keeps the latch consistent: clear while not halted, a cause recorded once halted (10_state.md section
10). -/
def Obligations.StepKeepsLatchConsistent : Prop :=
  ∀ s t : State, LatchConsistent s → step s = .next t → LatchConsistent t

/-- The three invariants hold at reset. THE MODEL'S CHOICE (log entry 19): MemoryCanonical, the first of them, speaks of
the model's own form of memory, a canonical list; PcBounded and LatchConsistent are 10_state.md sections 5 and 10. -/
def Obligations.ResetSatisfiesInvariants : Prop :=
  MemoryCanonical State.reset ∧ PcBounded State.reset ∧ LatchConsistent State.reset

/-! ## Memory (spec/20_memory.md) -/

/-- After any sequence of writes to the memory as reset leaves it, a read returns the value of the last write to that
cell, or its reset content where none was written (20_memory.md section 6). -/
def Obligations.MemoryReturnsLastWrite : Prop :=
  ∀ (writes : List (Nat × Byte)) (a : Nat),
    Memory.read (writes.foldl (fun m w => Memory.write m w.1 w.2) []) a =
      ((writes.reverse.find? (fun w => w.1 == a)).map Prod.snd).getD (font.getD a 0)

/-- Two canonical memories that read alike at every address are the same data. THE MODEL'S CHOICE of form (log entry
19), of the flat array of 20_memory.md section 1. -/
def Obligations.CanonicalMemoriesReadingAlikeAreEqual : Prop :=
  ∀ m m' : Memory, Memory.wf m → Memory.wf m' → (∀ a, Memory.read m a = Memory.read m' a) → m = m'

/-- Self-modifying code: the word that LDRM stores where PC points is the word the very next step decodes and runs
(20_memory.md section 8). -/
def Obligations.StoredWordIsFetchedNext : Prop :=
  ∀ (s : State) (i : Instr), s.halted = false → s.i = s.pc → s.pc.toNat + 1 < 0x1000 →
    decode (s.getV 0) (s.getV 1) = .known i →
    ∃ t, exec (.ldrm 2) s = .next t ∧ step t = exec i (tick { t with pc := s.pc + 2 })

/-! ## Reset and ports (spec/70_reset_and_hazards.md, spec/60_exceptions.md) -/

/-- Reset(rom) from any state (70_reset_and_hazards.md R119): every register 0 but PC, the framebuffer and the keypad
clear, the latch clear, memory the font, the ROM from 0x200 and 0x00 elsewhere; a ROM over 3584 bytes instead leaves
LOAD_TOO_LARGE in the latch and copies no byte. The stack entries are left unspecified, and nothing is said of them. -/
def Obligations.ResetLoadsRom : Prop :=
  ∀ (rom : List Byte) (s : State),
    let t := portReset rom s
    (∀ r, t.getV r = 0) ∧ t.i = 0 ∧ t.sp = 0 ∧ t.dt = 0 ∧ t.st = 0 ∧ (∀ c r, t.pixel c r = false) ∧
    (∀ k : Fin 16, t.key[k] = false) ∧ t.pc = 0x200 ∧
    (rom.length ≤ 3584 →
      t.halted = false ∧ t.faultCode = .none ∧ t.faultPc = 0 ∧ t.faultInfo = 0 ∧
      (∀ k (h : k < rom.length), Memory.read t.mem (0x200 + k) = rom[k]) ∧
      (∀ a, a < 0x200 ∨ 0x200 + rom.length ≤ a → Memory.read t.mem a = font.getD a 0)) ∧
    (3584 < rom.length →
      Faulted .loadTooLarge 0x200 0 t ∧ ∀ a, Memory.read t.mem a = font.getD a 0)

/-- Reset with any ROM that fits, from any state, gives a state that satisfies the three invariants. THE MODEL'S CHOICE
(log entry 19): MemoryCanonical, the first of them, speaks of the model's own form of memory, a canonical list; PcBounded
and LatchConsistent are 10_state.md sections 5 and 10. -/
def Obligations.ResetWithRomSatisfiesInvariants : Prop :=
  ∀ (rom : List Byte) (s : State), rom.length ≤ 3584 →
    MemoryCanonical (portReset rom s) ∧ PcBounded (portReset rom s) ∧ LatchConsistent (portReset rom s)

/-- set_key(k) makes KEY[k] true and clear_key(k) makes it false, for k in 0..15, and each changes nothing else
(60_exceptions.md section 5); another index is refused (60_exceptions.md section 6). THE MODEL'S CHOICE (log entry 27): this
holds on a halted core too. -/
def Obligations.KeypadPortSetsOneKey : Prop :=
  (∀ (s : State) (k : Fin 16), ∃ t u, portSetKey k.val s = .next t ∧ portClearKey k.val s = .next u ∧
    t.key[k] = true ∧ u.key[k] = false ∧ OnlyChanges (· ∈ [Part.key k]) s t ∧ OnlyChanges (· ∈ [Part.key k]) s u) ∧
  (∀ (s : State) (k : Nat), 16 ≤ k →
    portSetKey k s = .refused (.keyIndex k) ∧ portClearKey k s = .refused (.keyIndex k))

/-- sound = 1 exactly when ST is not 0 (60_exceptions.md R113). -/
def Obligations.SoundIsOnWhileTimerRuns : Prop :=
  ∀ s : State, portSound s = true ↔ 0 < s.st.toNat
end

