-- ==== Sys2Proof/Laws/Memory.lean ====
section
/-!
SUPPORT. The laws of the memory list: what a read sees after a write, and that every operation keeps the canonical form.
-/
namespace Sys2Proof.Machine

theorem Memory.read_insert (c : Host.Cell) (m : Memory) (a : Nat) (h : ∀ d ∈ m, d.1 ≠ c.1) :
    Memory.read (Memory.insert c m) a = if c.1 = a then c.2 else Memory.read m a := by
  induction m with
  | nil => simp [Memory.insert, Memory.read]
  | cons d m ih =>
    have ih := ih fun e he => h e (List.mem_cons_of_mem _ he)
    have hd := h d List.mem_cons_self
    unfold Memory.insert
    split
    · simp [Memory.read]
    · simp only [Memory.read, ih]
      split <;> split <;> simp_all

theorem Memory.read_erase (m : Memory) (a b : Nat) :
    Memory.read (m.filter fun c => c.1 != a) b = if b = a then Memory.initial a else Memory.read m b := by
  induction m with
  | nil => by_cases h : b = a <;> simp [Memory.read, h]
  | cons c m ih =>
    by_cases hc : c.1 = a
    · simp only [List.filter_cons, hc, bne_self_eq_false, Bool.false_eq_true, if_false, ih, Memory.read]
      split
      · rfl
      · simp_all [eq_comm]
    · simp only [List.filter_cons, bne_iff_ne, ne_eq, hc, not_false_eq_true, if_true, Memory.read, ih]
      split
      · simp_all
      · rfl

/-- A read after a write: the byte written at the address written, the old byte everywhere else. -/
theorem Memory.read_write (m : Memory) (a c : Nat) (b : Byte) :
    Memory.read (Memory.write m a b) c = if c = a then b else Memory.read m c := by
  unfold Memory.write
  split
  · rename_i hb
    rw [Memory.read_erase]
    split <;> simp_all
  · rw [Memory.read_insert]
    · simp only [Memory.read_erase, eq_comm]
      split <;> rfl
    · intro d hd
      simpa using (List.mem_filter.mp hd).2

theorem Memory.mem_insert (c d : Host.Cell) (m : Memory) : d ∈ Memory.insert c m ↔ d = c ∨ d ∈ m := by
  induction m with
  | nil => simp [Memory.insert]
  | cons e m ih =>
    unfold Memory.insert
    split
    · simp
    · simp [ih, or_left_comm]

theorem Memory.pairwise_insert (c : Host.Cell) (m : Memory) (hm : m.Pairwise fun d e => d.1 < e.1)
    (h : ∀ d ∈ m, d.1 ≠ c.1) : (Memory.insert c m).Pairwise fun d e => d.1 < e.1 := by
  induction m with
  | nil => simp [Memory.insert]
  | cons d m ih =>
    have hd := h d List.mem_cons_self
    obtain ⟨hlt, hm⟩ := List.pairwise_cons.mp hm
    unfold Memory.insert
    split
    · have hcd : c.1 < d.1 := by omega
      refine List.pairwise_cons.mpr ⟨fun e he => ?_, List.pairwise_cons.mpr ⟨hlt, hm⟩⟩
      rcases List.mem_cons.mp he with rfl | he
      · exact hcd
      · exact hcd.trans (hlt e he)
    · refine List.pairwise_cons.mpr ⟨fun e he => ?_, ih hm fun e he => h e (List.mem_cons_of_mem _ he)⟩
      rcases (Memory.mem_insert c e m).mp he with rfl | he
      · omega
      · exact hlt e he

/-- A write to an address that exists keeps the canonical form. -/
theorem Memory.wf_write (m : Memory) (a : Nat) (b : Byte) (ha : a < Config.memSize) (hm : Memory.wf m) :
    Memory.wf (Memory.write m a b) := by
  have hp := hm.1.filter fun c => c.1 != a
  have hc : ∀ c ∈ m.filter (fun c => c.1 != a), c.1 < Config.memSize ∧ c.2 ≠ Memory.initial c.1 :=
    fun c h => hm.2 c (List.mem_filter.mp h).1
  unfold Memory.write
  split
  · exact ⟨hp, hc⟩
  · refine ⟨Memory.pairwise_insert _ _ hp fun d hd => by simpa using (List.mem_filter.mp hd).2, fun c h => ?_⟩
    rcases (Memory.mem_insert _ c _).mp h with rfl | h
    · exact ⟨ha, ‹_›⟩
    · exact hc c h

/-- The reset memory is canonical. -/
theorem Memory.wf_nil : Memory.wf [] := by decide

/-- The ROM load keeps the canonical form, as long as it stays in the address space. -/
theorem Memory.wf_loadBytes (bs : List Byte) (a : Nat) (m : Memory) (h : a + bs.length ≤ Config.memSize)
    (hm : Memory.wf m) : Memory.wf (loadBytes a bs m) := by
  induction bs generalizing a m with
  | nil => exact hm
  | cons b bs ih =>
    rw [List.length_cons] at h
    exact ih (a + 1) _ (by omega) (Memory.wf_write m a b (by omega) hm)

end Sys2Proof.Machine
end

