-- ==== Sys2Proof/Laws/State.lean ====
section
/-!
SUPPORT. What each named update of the state leaves in each field: one lemma a field, true by unfolding, so that no later
proof unfolds an update. A register or pixel written and read back is `getV_setV`, `pixel_setPixel`.
-/
namespace Sys2Proof.Machine

variable (s : State) (r r' : Reg) (b : Byte) (c c' : Fin 64) (w w' : Fin 32) (p : Bool) (cur info : Word)
  (code : FaultCode)

/-! ## setV -/

theorem getV_setV : (s.setV r b).getV r' = if r' = r then b else s.getV r' := by
  simp only [State.getV, State.setV, Fin.getElem_fin, Vector.getElem_set, Fin.ext_iff, eq_comm]

@[simp] theorem getV_setV_self : (s.setV r b).getV r = b := by simp [getV_setV]

theorem getV_setV_ne (h : r' ≠ r) : (s.setV r b).getV r' = s.getV r' := by simp [getV_setV, h]

@[simp] theorem setV_mem : (s.setV r b).mem = s.mem := rfl
@[simp] theorem setV_i : (s.setV r b).i = s.i := rfl
@[simp] theorem setV_pc : (s.setV r b).pc = s.pc := rfl
@[simp] theorem setV_sp : (s.setV r b).sp = s.sp := rfl
@[simp] theorem setV_stk : (s.setV r b).stk = s.stk := rfl
@[simp] theorem setV_dt : (s.setV r b).dt = s.dt := rfl
@[simp] theorem setV_st : (s.setV r b).st = s.st := rfl
@[simp] theorem setV_fb : (s.setV r b).fb = s.fb := rfl
@[simp] theorem setV_pixel : (s.setV r b).pixel c w = s.pixel c w := rfl
@[simp] theorem setV_key : (s.setV r b).key = s.key := rfl
@[simp] theorem setV_halted : (s.setV r b).halted = s.halted := rfl
@[simp] theorem setV_faultCode : (s.setV r b).faultCode = s.faultCode := rfl
@[simp] theorem setV_faultPc : (s.setV r b).faultPc = s.faultPc := rfl
@[simp] theorem setV_faultInfo : (s.setV r b).faultInfo = s.faultInfo := rfl
@[simp] theorem setV_rndCount : (s.setV r b).rndCount = s.rndCount := rfl

/-! ## setPixel -/

theorem pixel_setPixel :
    (s.setPixel c w p).pixel c' w' = if c' = c ∧ w' = w then p else s.pixel c' w' := by
  simp only [State.pixel, State.setPixel, Fin.getElem_fin, Vector.getElem_set, Fin.ext_iff]
  by_cases hc : c.val = c'.val
  · by_cases hw : w.val = w'.val
    · simp [hc, hw]
    · simp [hc, hw, Ne.symm hw]
  · simp [hc, Ne.symm hc]

@[simp] theorem setPixel_mem : (s.setPixel c w p).mem = s.mem := rfl
@[simp] theorem setPixel_v : (s.setPixel c w p).v = s.v := rfl
@[simp] theorem setPixel_getV : (s.setPixel c w p).getV r = s.getV r := rfl
@[simp] theorem setPixel_i : (s.setPixel c w p).i = s.i := rfl
@[simp] theorem setPixel_pc : (s.setPixel c w p).pc = s.pc := rfl
@[simp] theorem setPixel_sp : (s.setPixel c w p).sp = s.sp := rfl
@[simp] theorem setPixel_stk : (s.setPixel c w p).stk = s.stk := rfl
@[simp] theorem setPixel_dt : (s.setPixel c w p).dt = s.dt := rfl
@[simp] theorem setPixel_st : (s.setPixel c w p).st = s.st := rfl
@[simp] theorem setPixel_key : (s.setPixel c w p).key = s.key := rfl
@[simp] theorem setPixel_halted : (s.setPixel c w p).halted = s.halted := rfl
@[simp] theorem setPixel_faultCode : (s.setPixel c w p).faultCode = s.faultCode := rfl
@[simp] theorem setPixel_faultPc : (s.setPixel c w p).faultPc = s.faultPc := rfl
@[simp] theorem setPixel_faultInfo : (s.setPixel c w p).faultInfo = s.faultInfo := rfl
@[simp] theorem setPixel_rndCount : (s.setPixel c w p).rndCount = s.rndCount := rfl

/-! ## raiseAt: the latch, and nothing else (`raise` is `raiseAt` at CUR) -/

@[simp] theorem raise_eq : raise code info s = raiseAt (curPc s) code info s := rfl
@[simp] theorem raiseAt_halted : (raiseAt cur code info s).halted = true := rfl
@[simp] theorem raiseAt_faultCode : (raiseAt cur code info s).faultCode = code := rfl
@[simp] theorem raiseAt_faultPc : (raiseAt cur code info s).faultPc = cur := rfl
@[simp] theorem raiseAt_faultInfo : (raiseAt cur code info s).faultInfo = info := rfl
@[simp] theorem raiseAt_mem : (raiseAt cur code info s).mem = s.mem := rfl
@[simp] theorem raiseAt_v : (raiseAt cur code info s).v = s.v := rfl
@[simp] theorem raiseAt_getV : (raiseAt cur code info s).getV r = s.getV r := rfl
@[simp] theorem raiseAt_i : (raiseAt cur code info s).i = s.i := rfl
@[simp] theorem raiseAt_pc : (raiseAt cur code info s).pc = s.pc := rfl
@[simp] theorem raiseAt_sp : (raiseAt cur code info s).sp = s.sp := rfl
@[simp] theorem raiseAt_stk : (raiseAt cur code info s).stk = s.stk := rfl
@[simp] theorem raiseAt_dt : (raiseAt cur code info s).dt = s.dt := rfl
@[simp] theorem raiseAt_st : (raiseAt cur code info s).st = s.st := rfl
@[simp] theorem raiseAt_fb : (raiseAt cur code info s).fb = s.fb := rfl
@[simp] theorem raiseAt_pixel : (raiseAt cur code info s).pixel c w = s.pixel c w := rfl
@[simp] theorem raiseAt_key : (raiseAt cur code info s).key = s.key := rfl
@[simp] theorem raiseAt_rndCount : (raiseAt cur code info s).rndCount = s.rndCount := rfl

/-! ## tick: DT and ST, and nothing else -/

@[simp] theorem tick_dt : (tick s).dt = countDown s.dt := rfl
@[simp] theorem tick_st : (tick s).st = countDown s.st := rfl
@[simp] theorem tick_mem : (tick s).mem = s.mem := rfl
@[simp] theorem tick_v : (tick s).v = s.v := rfl
@[simp] theorem tick_getV : (tick s).getV r = s.getV r := rfl
@[simp] theorem tick_i : (tick s).i = s.i := rfl
@[simp] theorem tick_pc : (tick s).pc = s.pc := rfl
@[simp] theorem tick_sp : (tick s).sp = s.sp := rfl
@[simp] theorem tick_stk : (tick s).stk = s.stk := rfl
@[simp] theorem tick_fb : (tick s).fb = s.fb := rfl
@[simp] theorem tick_pixel : (tick s).pixel c w = s.pixel c w := rfl
@[simp] theorem tick_key : (tick s).key = s.key := rfl
@[simp] theorem tick_halted : (tick s).halted = s.halted := rfl
@[simp] theorem tick_faultCode : (tick s).faultCode = s.faultCode := rfl
@[simp] theorem tick_faultPc : (tick s).faultPc = s.faultPc := rfl
@[simp] theorem tick_faultInfo : (tick s).faultInfo = s.faultInfo := rfl
@[simp] theorem tick_rndCount : (tick s).rndCount = s.rndCount := rfl

/-- A timer's countdown as a number: one less, stopping at 0. -/
theorem countDown_toNat (t : Byte) : (countDown t).toNat = t.toNat - 1 := by
  unfold countDown
  split
  · subst t; rfl
  · have : t.toNat ≠ 0 := fun h => ‹t ≠ 0› (BitVec.eq_of_toNat_eq h)
    rw [BitVec.toNat_sub_of_le]
    · rfl
    · exact BitVec.le_def.mpr (by show 1 ≤ _; omega)

end Sys2Proof.Machine
end

