-- ==== Sys2Proof/Laws/Ops.lean ====
section
/-!
SUPPORT. Everything each shared operation of Machine/Ops.lean and Machine/Sequencer.lean can do, said once: an access that
exists, an access that faults; for each loop, the pure loop it is when every access exists, and the prefix of it that has
happened when one does not (spec/20_memory.md R42).
-/
namespace Sys2Proof.Machine

/-! ## One access -/

theorem memRead_ok (a : Nat) (s : State) (h : a < 0x1000) : memRead a s = .ok (Memory.read s.mem a) :=
  if_pos h

theorem memRead_fault (a : Nat) (s : State) (h : 0x1000 ≤ a) :
    memRead a s = .error (raise .memRange (BitVec.ofNat 16 a) s) :=
  if_neg (Nat.not_lt.mpr h)

theorem memWrite_ok (a : Nat) (b : Byte) (s : State) (h : a < 0x1000) :
    memWrite a b s = .ok { s with mem := Memory.write s.mem a b } :=
  if_pos h

theorem memWrite_fault (a : Nat) (b : Byte) (s : State) (h : 0x1000 ≤ a) :
    memWrite a b s = .error (raise .memRange (BitVec.ofNat 16 a) s) :=
  if_neg (Nat.not_lt.mpr h)

/-! ## The stack -/

theorem push_ok (v : Word) (s : State) (h : s.sp.val < 16) :
    push v s = .ok { s with stk := s.stk.set s.sp.val v h, sp := ⟨s.sp.val + 1, by omega⟩ } :=
  dif_pos h

theorem push_fault (v : Word) (s : State) (h : s.sp.val = 16) : push v s = .error (raise .stackOverflow 0 s) :=
  dif_neg (by omega)

theorem pop_ok (s : State) (h : s.sp.val ≠ 0) :
    pop s = .ok (s.stk[s.sp.val - 1]'(by omega), { s with sp := ⟨s.sp.val - 1, by omega⟩ }) :=
  dif_neg h

theorem pop_fault (s : State) (h : s.sp.val = 0) : pop s = .error (raise .stackUnderflow 0 s) :=
  dif_pos h

/-! ## The fetch -/

theorem fetch_ok (s : State) (h : s.pc.toNat + 1 < 0x1000) :
    fetch s = .ok (Memory.read s.mem s.pc.toNat, Memory.read s.mem (s.pc.toNat + 1), { s with pc := s.pc + 2 }) := by
  have h0 : ¬ Config.memSize ≤ s.pc.toNat := by simp only [Config.memSize]; omega
  have h1 : ¬ Config.memSize ≤ s.pc.toNat + 1 := by simp only [Config.memSize]; omega
  simp only [fetch, if_neg h0, if_neg h1]

theorem fetch_fault (s : State) (h : 0x1000 ≤ s.pc.toNat + 1) :
    fetch s = .error (raiseAt s.pc .memRange (if 0x1000 ≤ s.pc.toNat then s.pc else s.pc + 1) s) := by
  have h1 : Config.memSize ≤ s.pc.toNat + 1 := h
  by_cases h0 : 0x1000 ≤ s.pc.toNat
  · simp only [fetch, if_pos (show Config.memSize ≤ s.pc.toNat from h0), if_pos h0]
  · simp only [fetch, if_neg (show ¬ Config.memSize ≤ s.pc.toNat from h0), if_pos h1, if_neg h0]

/-! ## finish -/

/-- Whatever Execute ends with is a next state. -/
theorem finish_next (e : Except State State) : ∃ t, finish e = .next t := by
  cases e <;> exact ⟨_, rfl⟩

@[simp] theorem finish_ok (s : State) : finish (.ok s) = .next s := rfl
@[simp] theorem finish_error (s : State) : finish (.error s) = .next s := rfl

/-! ## Storing bytes -/

/-- The pure loop behind `storeBytes`, read back. -/
theorem Memory.read_loadBytes (bs : List Byte) (a : Nat) (m : Memory) (c : Nat) :
    Memory.read (loadBytes a bs m) c =
      if a ≤ c ∧ c < a + bs.length then bs.getD (c - a) 0 else Memory.read m c := by
  induction bs generalizing a m with
  | nil =>
    have : ¬ (a ≤ c ∧ c < a + ([] : List Byte).length) := by simp only [List.length_nil]; omega
    rw [if_neg this]; rfl
  | cons b bs ih =>
    rw [loadBytes, ih, Memory.read_write, List.length_cons]
    by_cases h0 : c = a
    · subst h0
      rw [if_neg (by omega), if_pos rfl, if_pos (by omega)]
      simp
    · by_cases h1 : a + 1 ≤ c ∧ c < a + 1 + bs.length
      · rw [if_pos h1, if_pos (by omega), show c - a = (c - (a + 1)) + 1 by omega]
        simp
      · rw [if_neg h1, if_neg h0, if_neg (by omega)]

/-- All bytes are stored when their addresses exist; otherwise those below 0x1000 are, and MEM_RANGE is raised at the
first address that does not exist. -/
theorem storeBytes_eq (bs : List Byte) (a : Nat) (s : State) :
    storeBytes a bs s =
      if bs = [] ∨ a + bs.length ≤ 0x1000 then .ok { s with mem := loadBytes a bs s.mem }
      else .error (raise .memRange (BitVec.ofNat 16 (max a 0x1000))
        { s with mem := loadBytes a (bs.take (0x1000 - a)) s.mem }) := by
  induction bs generalizing a s with
  | nil => simp [storeBytes, loadBytes]
  | cons b bs ih =>
    unfold storeBytes
    by_cases ha : a < 0x1000
    · rw [memWrite_ok a b s ha]
      show storeBytes (a + 1) bs _ = _
      rw [ih]
      have hmax : max (a + 1) 0x1000 = max a 0x1000 := by omega
      have htake : 0x1000 - a = (0x1000 - (a + 1)) + 1 := by omega
      rw [hmax, htake, List.take_succ_cons]
      by_cases hb : bs = []
      · subst hb
        rw [if_pos (.inl rfl), if_pos (.inr (by rw [List.length_singleton]; omega))]
        rfl
      · by_cases hl : a + 1 + bs.length ≤ 0x1000
        · rw [if_pos (.inr hl), if_pos (.inr (by rw [List.length_cons]; omega))]
          rfl
        · have hl' : ¬ (b :: bs = [] ∨ a + (b :: bs).length ≤ 0x1000) := by
            rw [List.length_cons]; simp; omega
          rw [if_neg (by simp [hb, hl]), if_neg hl']
          rfl
    · rw [memWrite_fault a b s (by omega)]
      have hl' : ¬ (b :: bs = [] ∨ a + (b :: bs).length ≤ 0x1000) := by
        rw [List.length_cons]; simp; omega
      rw [if_neg hl', show max a 0x1000 = a by omega, show 0x1000 - a = 0 by omega]
      rfl

theorem storeBytes_ok (bs : List Byte) (a : Nat) (s : State) (h : bs = [] ∨ a + bs.length ≤ 0x1000) :
    storeBytes a bs s = .ok { s with mem := loadBytes a bs s.mem } := by
  rw [storeBytes_eq, if_pos h]

theorem storeBytes_fault (bs : List Byte) (a : Nat) (s : State) (hne : bs ≠ []) (h : 0x1000 < a + bs.length) :
    storeBytes a bs s = .error (raise .memRange (BitVec.ofNat 16 (max a 0x1000))
      { s with mem := loadBytes a (bs.take (0x1000 - a)) s.mem }) := by
  rw [storeBytes_eq, if_neg (by rintro (e | e); exacts [hne e, by omega])]

/-- A byte just stored. -/
theorem Memory.read_loadBytes_in (bs : List Byte) (a : Nat) (m : Memory) (k : Nat) (h : k < bs.length) :
    Memory.read (loadBytes a bs m) (a + k) = bs[k] := by
  rw [Memory.read_loadBytes, if_pos (by omega), Nat.add_sub_cancel_left, List.getD_eq_getElem?_getD,
    List.getElem?_eq_getElem h, Option.getD_some]

/-- A byte outside those stored. -/
theorem Memory.read_loadBytes_out (bs : List Byte) (a : Nat) (m : Memory) (c : Nat)
    (h : ∀ k < bs.length, c ≠ a + k) : Memory.read (loadBytes a bs m) c = Memory.read m c := by
  rw [Memory.read_loadBytes, if_neg]
  rintro ⟨h1, h2⟩
  exact h (c - a) (by omega) (by omega)

/-! ## Loading registers -/

/-- The pure loop behind `loadRegs`. -/
def fillRegs (a : Nat) : List Reg → State → State
  | [], s => s
  | r :: rs, s => fillRegs (a + 1) rs (s.setV r (Memory.read s.mem a))

/-- All registers are loaded when their addresses exist; otherwise those below 0x1000 are, and MEM_RANGE is raised at the
first address that does not exist. -/
theorem loadRegs_eq (rs : List Reg) (a : Nat) (s : State) :
    loadRegs a rs s =
      if rs = [] ∨ a + rs.length ≤ 0x1000 then .ok (fillRegs a rs s)
      else .error (raise .memRange (BitVec.ofNat 16 (max a 0x1000)) (fillRegs a (rs.take (0x1000 - a)) s)) := by
  induction rs generalizing a s with
  | nil => simp [loadRegs, fillRegs]
  | cons r rs ih =>
    unfold loadRegs
    by_cases ha : a < 0x1000
    · rw [memRead_ok a s ha]
      show loadRegs (a + 1) rs _ = _
      rw [ih]
      have hmax : max (a + 1) 0x1000 = max a 0x1000 := by omega
      have htake : 0x1000 - a = (0x1000 - (a + 1)) + 1 := by omega
      rw [hmax, htake, List.take_succ_cons]
      by_cases hb : rs = []
      · subst hb
        rw [if_pos (.inl rfl), if_pos (.inr (by rw [List.length_singleton]; omega))]
        rfl
      · by_cases hl : a + 1 + rs.length ≤ 0x1000
        · rw [if_pos (.inr hl), if_pos (.inr (by rw [List.length_cons]; omega))]
          rfl
        · have hl' : ¬ (r :: rs = [] ∨ a + (r :: rs).length ≤ 0x1000) := by
            rw [List.length_cons]; simp; omega
          rw [if_neg (by simp [hb, hl]), if_neg hl']
          rfl
    · rw [memRead_fault a s (by omega)]
      have hl' : ¬ (r :: rs = [] ∨ a + (r :: rs).length ≤ 0x1000) := by
        rw [List.length_cons]; simp; omega
      rw [if_neg hl', show max a 0x1000 = a by omega, show 0x1000 - a = 0 by omega]
      rfl

theorem loadRegs_ok (rs : List Reg) (a : Nat) (s : State) (h : rs = [] ∨ a + rs.length ≤ 0x1000) :
    loadRegs a rs s = .ok (fillRegs a rs s) := by
  rw [loadRegs_eq, if_pos h]

theorem loadRegs_fault (rs : List Reg) (a : Nat) (s : State) (hne : rs ≠ []) (h : 0x1000 < a + rs.length) :
    loadRegs a rs s =
      .error (raise .memRange (BitVec.ofNat 16 (max a 0x1000)) (fillRegs a (rs.take (0x1000 - a)) s)) := by
  rw [loadRegs_eq, if_neg (by rintro (e | e); exacts [hne e, by omega])]

/-- The pure loop changes the general registers only. -/
theorem fillRegs_eq (rs : List Reg) (a : Nat) (s : State) : ∃ v, fillRegs a rs s = { s with v := v } := by
  induction rs generalizing a s with
  | nil => exact ⟨s.v, rfl⟩
  | cons r rs ih =>
    obtain ⟨v, hv⟩ := ih (a + 1) (s.setV r (Memory.read s.mem a))
    exact ⟨v, hv⟩

/-- Each register listed, once, holds the byte at its place in the list; the others hold what they held. -/
theorem getV_fillRegs (rs : List Reg) (hrs : rs.Nodup) (a : Nat) (s : State) (r : Reg) :
    (fillRegs a rs s).getV r = if r ∈ rs then Memory.read s.mem (a + rs.idxOf r) else s.getV r := by
  induction rs generalizing a s with
  | nil => simp [fillRegs]
  | cons q rs ih =>
    obtain ⟨hq, hrs⟩ := List.nodup_cons.mp hrs
    rw [fillRegs, ih hrs]
    by_cases h : r = q
    · subst h
      simp [hq]
    · have h' : q ≠ r := fun e => h e.symm
      simp [h, List.idxOf_cons_ne _ h', getV_setV_ne _ _ _ _ h, Nat.add_assoc, Nat.add_comm 1]

/-- A prefix of V0..V(x-1) is such a range itself. -/
theorem bulkRegs_take (x : Reg) (j : Nat) : (bulkRegs x).take j = bulkRegs ⟨min j x.val, by omega⟩ := by
  simp only [bulkRegs, List.take_take]

/-- V0..V(x-1), each at its own number. -/
theorem bulkRegs_spec : ∀ x : Reg, (bulkRegs x).Nodup ∧ (bulkRegs x).length = x.val ∧
    ∀ r : Reg, (r ∈ bulkRegs x ↔ r < x) ∧ (r < x → (bulkRegs x).idxOf r = r.val ∧ (bulkRegs x)[r.val]? = some r) := by
  decide

/-- V0..V(x-1) loaded from `a` up. -/
theorem getV_fillRegs_bulk (x : Reg) (a : Nat) (s : State) (k : Reg) :
    (fillRegs a (bulkRegs x) s).getV k = if k < x then Memory.read s.mem (a + k.val) else s.getV k := by
  obtain ⟨hnd, -, hmem⟩ := bulkRegs_spec x
  rw [getV_fillRegs _ hnd]
  by_cases h : k < x
  · rw [if_pos ((hmem k).1.mpr h), if_pos h, ((hmem k).2 h).1]
  · rw [if_neg fun e => h ((hmem k).1.mp e), if_neg h]

/-- The first address out of range, as the latch records it. -/
theorem ofNat_max (i : Word) : BitVec.ofNat 16 (max i.toNat 0x1000) = if 0x1000 ≤ i.toNat then i else 0x1000 := by
  have := i.isLt
  apply BitVec.eq_of_toNat_eq
  split <;> simp <;> omega

end Sys2Proof.Machine
end

