-- ==== Sys2Proof/Laws/Display.lean ====
section
/-!
SUPPORT. What the two loops of DRW do, said once, pixel by pixel: a pixel is named by its offset from the sprite's
corner, modulo the framebuffer's size, so that each pixel is met at most once (spec/44_display.md R88, R89).
-/
namespace Sys2Proof.Machine

/-- The column offset, 0 to 63, of framebuffer column `c` from a sprite at `cx`. -/
def colOffset (cx : Byte) (c : Fin 64) : Nat := (c.val + 256 - cx.toNat) % 64

/-- The row offset, 0 to 31, of framebuffer row `r` from a sprite at `cy`. -/
def rowOffset (cy : Byte) (r : Fin 32) : Nat := (r.val + 256 - cy.toNat) % 32

theorem pixelCol_eq_iff (cx : Byte) (c : Fin 64) (j : Nat) (hj : j < 64) : c = pixelCol cx j ↔ colOffset cx c = j := by
  have := cx.isLt
  simp only [pixelCol, colOffset, Fin.ext_iff]
  omega

theorem pixelRow_eq_iff (cy : Byte) (r : Fin 32) (j : Nat) (hj : j < 32) : r = pixelRow cy j ↔ rowOffset cy r = j := by
  have := cy.isLt
  simp only [pixelRow, rowOffset, Fin.ext_iff]
  omega

/-- Drawing writes the framebuffer and VF, and nothing else. -/
theorem drawBits_eq (b cx cy : Byte) (r c n : Nat) (s : State) :
    ∃ v fb, drawBits b cx cy r c n s = { s with v := v, fb := fb } ∧ ∀ q : Reg, q ≠ 15 → v[q] = s.getV q := by
  induction n generalizing c s with
  | zero => exact ⟨s.v, s.fb, rfl, fun q _ => rfl⟩
  | succ n ih =>
    obtain ⟨v, fb, h, hv⟩ := ih (c + 1) (drawBit b cx cy r c s)
    refine ⟨v, fb, h, fun q hq => ?_⟩
    rw [hv q hq]
    exact getV_setV_ne _ _ _ _ hq

/-- One sprite row, bits c to c + n - 1: each pixel of those offsets is XOR-ed with its bit. -/
theorem drawBits_pixel (b cx cy : Byte) (r c n : Nat) (s : State) (hr : r < 32) (hn : c + n ≤ 64) (q : Fin 64)
    (w : Fin 32) :
    (drawBits b cx cy r c n s).pixel q w =
      (s.pixel q w ^^ (decide (rowOffset cy w = r ∧ c ≤ colOffset cx q ∧ colOffset cx q < c + n) &&
        spriteBit b (colOffset cx q))) := by
  induction n generalizing c s with
  | zero =>
    have : ¬ (rowOffset cy w = r ∧ c ≤ colOffset cx q ∧ colOffset cx q < c + 0) := by omega
    rw [decide_eq_false this, Bool.false_and, Bool.xor_false]
    rfl
  | succ n ih =>
    rw [drawBits, ih (c + 1) _ (by omega)]
    have hpix : (drawBit b cx cy r c s).pixel q w =
        (s.pixel q w ^^ (decide (rowOffset cy w = r ∧ colOffset cx q = c) && spriteBit b c)) := by
      simp only [drawBit, setV_pixel, pixel_setPixel, pixelCol_eq_iff cx q c (by omega), pixelRow_eq_iff cy w r hr]
      by_cases h : colOffset cx q = c ∧ rowOffset cy w = r
      · have h1 := (pixelCol_eq_iff cx q c (by omega)).mpr h.1
        have h2 := (pixelRow_eq_iff cy w r hr).mpr h.2
        rw [if_pos h, ← h1, ← h2]
        simp [h]
      · rw [if_neg h]
        have : ¬ (rowOffset cy w = r ∧ colOffset cx q = c) := fun e => h ⟨e.2, e.1⟩
        simp [this]
    rw [hpix]
    by_cases hc : colOffset cx q = c
    · have h1 : ¬ (rowOffset cy w = r ∧ c + 1 ≤ colOffset cx q ∧ colOffset cx q < c + 1 + n) := by omega
      have h2 : decide (rowOffset cy w = r ∧ c ≤ colOffset cx q ∧ colOffset cx q < c + (n + 1)) =
          decide (rowOffset cy w = r ∧ colOffset cx q = c) := decide_eq_decide.mpr (by omega)
      rw [decide_eq_false h1, h2, Bool.false_and, Bool.xor_false]
      simp only [hc]
    · have h1 : ¬ (rowOffset cy w = r ∧ colOffset cx q = c) := fun e => hc e.2
      have h2 : decide (rowOffset cy w = r ∧ c ≤ colOffset cx q ∧ colOffset cx q < c + (n + 1)) =
          decide (rowOffset cy w = r ∧ c + 1 ≤ colOffset cx q ∧ colOffset cx q < c + 1 + n) := decide_eq_decide.mpr (by omega)
      rw [decide_eq_false h1, h2, Bool.false_and, Bool.xor_false]

/-- VF after a whole sprite row: the collision bit of its last bit. -/
theorem drawBits_flag (b cx cy : Byte) (r : Nat) (s : State) (hr : r < 32) :
    (drawBits b cx cy r 0 8 s).getV 15 = collisionFlag (b.getLsbD 0) (s.pixel (pixelCol cx 7) (pixelRow cy r)) := by
  have hsplit : drawBits b cx cy r 0 8 s = drawBit b cx cy r 7 (drawBits b cx cy r 0 7 s) := rfl
  have hold : (drawBits b cx cy r 0 7 s).pixel (pixelCol cx 7) (pixelRow cy r) =
      s.pixel (pixelCol cx 7) (pixelRow cy r) := by
    have hcol := (pixelCol_eq_iff cx (pixelCol cx 7) 7 (by omega)).mp rfl
    rw [drawBits_pixel b cx cy r 0 7 s hr (by omega), hcol]
    simp
  rw [hsplit]
  simp only [drawBit, getV_setV_self, hold]
  rfl

/-- The pure loop behind `drawRows`. -/
def paintRows (cx cy : Byte) : Nat → Nat → State → State
  | _, 0, s => s
  | r, n + 1, s => paintRows cx cy (r + 1) n (drawBits (Memory.read s.mem (dataAddr s r)) cx cy r 0 8 s)

/-- All rows are drawn when their addresses exist; otherwise those below 0x1000 are, and MEM_RANGE is raised at the first
address that does not exist. -/
theorem drawRows_eq (cx cy : Byte) (n r : Nat) (s : State) :
    drawRows cx cy r n s =
      if n = 0 ∨ s.i.toNat + r + n ≤ 0x1000 then .ok (paintRows cx cy r n s)
      else .error (raise .memRange (BitVec.ofNat 16 (max (s.i.toNat + r) 0x1000))
        (paintRows cx cy r (0x1000 - (s.i.toNat + r)) s)) := by
  induction n generalizing r s with
  | zero => simp [drawRows, paintRows]
  | succ n ih =>
    unfold drawRows
    by_cases ha : s.i.toNat + r < 0x1000
    · rw [memRead_ok (dataAddr s r) s ha]
      show drawRows cx cy (r + 1) n _ = _
      obtain ⟨v, fb, hd, -⟩ := drawBits_eq (Memory.read s.mem (dataAddr s r)) cx cy r 0 8 s
      have hi : (drawBits (Memory.read s.mem (dataAddr s r)) cx cy r 0 8 s).i = s.i := by rw [hd]
      rw [ih, hi]
      have hmax : max (s.i.toNat + (r + 1)) 0x1000 = max (s.i.toNat + r) 0x1000 := by omega
      have hsub : 0x1000 - (s.i.toNat + r) = (0x1000 - (s.i.toNat + (r + 1))) + 1 := by omega
      rw [hmax, hsub]
      by_cases hc : n = 0 ∨ s.i.toNat + (r + 1) + n ≤ 0x1000
      · rw [if_pos hc, if_pos (.inr (by omega))]
        rfl
      · rw [if_neg hc, if_neg (by omega)]
        rfl
    · rw [memRead_fault (dataAddr s r) s (by unfold dataAddr; omega)]
      rw [if_neg (by omega), show max (s.i.toNat + r) 0x1000 = s.i.toNat + r by omega,
        show 0x1000 - (s.i.toNat + r) = 0 by omega]
      rfl

theorem drawRows_ok (cx cy : Byte) (n r : Nat) (s : State) (h : n = 0 ∨ s.i.toNat + r + n ≤ 0x1000) :
    drawRows cx cy r n s = .ok (paintRows cx cy r n s) := by
  rw [drawRows_eq, if_pos h]

theorem drawRows_fault (cx cy : Byte) (n r : Nat) (s : State) (hne : n ≠ 0) (h : 0x1000 < s.i.toNat + r + n) :
    drawRows cx cy r n s = .error (raise .memRange (BitVec.ofNat 16 (max (s.i.toNat + r) 0x1000))
      (paintRows cx cy r (0x1000 - (s.i.toNat + r)) s)) := by
  rw [drawRows_eq, if_neg (by omega)]

/-- Drawing writes the framebuffer and VF, and nothing else. -/
theorem paintRows_eq (cx cy : Byte) (n r : Nat) (s : State) :
    ∃ v fb, paintRows cx cy r n s = { s with v := v, fb := fb } ∧ ∀ q : Reg, q ≠ 15 → v[q] = s.getV q := by
  induction n generalizing r s with
  | zero => exact ⟨s.v, s.fb, rfl, fun q _ => rfl⟩
  | succ n ih =>
    obtain ⟨v, fb, hd, hv⟩ := drawBits_eq (Memory.read s.mem (dataAddr s r)) cx cy r 0 8 s
    obtain ⟨v', fb', hd', hv'⟩ := ih (r + 1) { s with v := v, fb := fb }
    refine ⟨v', fb', ?_, fun q hq => (hv' q hq).trans (hv q hq)⟩
    rw [paintRows, hd, hd']

/-- Rows r to r + n - 1: each pixel of the sprite is XOR-ed with its bit, every other pixel is left alone. -/
theorem paintRows_pixel (cx cy : Byte) (n r : Nat) (s : State) (hr : r + n ≤ 32) (q : Fin 64) (w : Fin 32) :
    (paintRows cx cy r n s).pixel q w =
      (s.pixel q w ^^ (decide (r ≤ rowOffset cy w ∧ rowOffset cy w < r + n ∧ colOffset cx q < 8) &&
        spriteBit (Memory.read s.mem (s.i.toNat + rowOffset cy w)) (colOffset cx q))) := by
  induction n generalizing r s with
  | zero =>
    have : ¬ (r ≤ rowOffset cy w ∧ rowOffset cy w < r + 0 ∧ colOffset cx q < 8) := by omega
    rw [decide_eq_false this, Bool.false_and, Bool.xor_false]
    rfl
  | succ n ih =>
    obtain ⟨v, fb, hd, -⟩ := drawBits_eq (Memory.read s.mem (dataAddr s r)) cx cy r 0 8 s
    have hm : (drawBits (Memory.read s.mem (dataAddr s r)) cx cy r 0 8 s).mem = s.mem := by rw [hd]
    have hi : (drawBits (Memory.read s.mem (dataAddr s r)) cx cy r 0 8 s).i = s.i := by rw [hd]
    rw [paintRows, ih (r + 1) _ (by omega), hm, hi, drawBits_pixel _ cx cy r 0 8 s (by omega) (by omega)]
    by_cases hw : rowOffset cy w = r
    · have h1 : ¬ (r + 1 ≤ rowOffset cy w ∧ rowOffset cy w < r + 1 + n ∧ colOffset cx q < 8) := by omega
      have h2 : decide (r ≤ rowOffset cy w ∧ rowOffset cy w < r + (n + 1) ∧ colOffset cx q < 8) =
          decide (rowOffset cy w = r ∧ 0 ≤ colOffset cx q ∧ colOffset cx q < 0 + 8) := decide_eq_decide.mpr (by omega)
      rw [decide_eq_false h1, h2, Bool.false_and, Bool.xor_false]
      simp only [hw, dataAddr]
    · have h1 : ¬ (rowOffset cy w = r ∧ 0 ≤ colOffset cx q ∧ colOffset cx q < 0 + 8) := fun e => hw e.1
      have h2 : decide (r ≤ rowOffset cy w ∧ rowOffset cy w < r + (n + 1) ∧ colOffset cx q < 8) =
          decide (r + 1 ≤ rowOffset cy w ∧ rowOffset cy w < r + 1 + n ∧ colOffset cx q < 8) := decide_eq_decide.mpr (by omega)
      rw [decide_eq_false h1, h2, Bool.false_and, Bool.xor_false]

/-- VF after at least one row: the collision bit of the last bit of the last row, on the framebuffer as it was before the
instruction (44_display.md R90). -/
theorem paintRows_flag (cx cy : Byte) (n r : Nat) (s : State) (hr : r + n + 1 ≤ 32) :
    (paintRows cx cy r (n + 1) s).getV 15 =
      collisionFlag ((Memory.read s.mem (s.i.toNat + (r + n))).getLsbD 0)
        (s.pixel (pixelCol cx 7) (pixelRow cy (r + n))) := by
  induction n generalizing r s with
  | zero => exact drawBits_flag _ cx cy r s (by omega)
  | succ n ih =>
    obtain ⟨v, fb, hd, -⟩ := drawBits_eq (Memory.read s.mem (dataAddr s r)) cx cy r 0 8 s
    have hm : (drawBits (Memory.read s.mem (dataAddr s r)) cx cy r 0 8 s).mem = s.mem := by rw [hd]
    have hi : (drawBits (Memory.read s.mem (dataAddr s r)) cx cy r 0 8 s).i = s.i := by rw [hd]
    have hrow := (pixelRow_eq_iff cy (pixelRow cy (r + 1 + n)) (r + 1 + n) (by omega)).mp rfl
    have hne : ¬ (r + 1 + n = r ∧ 0 ≤ colOffset cx (pixelCol cx 7) ∧ colOffset cx (pixelCol cx 7) < 0 + 8) := by omega
    rw [paintRows, ih (r + 1) _ (by omega), hm, hi, drawBits_pixel _ cx cy r 0 8 s (by omega) (by omega), hrow,
      decide_eq_false hne, Bool.false_and, Bool.xor_false, show r + (n + 1) = r + 1 + n by omega]

end Sys2Proof.Machine
end

