-- ==== Sys2Proof/Laws/Encoding.lean ====
section
/-!
SUPPORT. The bit fields of Decode.lean read back from what the encoder packs: the bytes of a word, the nibbles of a byte,
and what each mask of the opcode table leaves of a packed word.
-/
namespace Sys2Proof

/-- A bit vector is its high part before its low part. -/
theorem append_extract {m n : Nat} (w : BitVec (m + n)) : w.extractLsb' n m ++ w.extractLsb' 0 n = w := by
  ext i hi
  simp only [BitVec.getElem_append, BitVec.getElem_extractLsb']
  split
  · simp [BitVec.getLsbD_eq_getElem hi]
  · have : n + (i - n) = i := by omega
    simp [this, BitVec.getLsbD_eq_getElem hi]

@[simp] theorem highByte_append (h l : Byte) : highByte (h ++ l : Word) = h :=
  BitVec.extractLsb'_append_eq_left

@[simp] theorem lowByte_append (h l : Byte) : lowByte (h ++ l : Word) = l :=
  BitVec.extractLsb'_append_eq_right

@[simp] theorem highNibble_append (a b : Nibble) : highNibble (a ++ b : Byte) = a :=
  BitVec.extractLsb'_append_eq_left

@[simp] theorem lowNibble_append (a b : Nibble) : lowNibble (a ++ b : Byte) = b :=
  BitVec.extractLsb'_append_eq_right

@[simp] theorem fieldReg_regField (x : Reg) : fieldReg (regField x) = x := rfl

@[simp] theorem fieldReg_ofFin (x : Reg) : fieldReg (BitVec.ofFin x) = x := rfl

@[simp] theorem regField_fieldReg (f : Nibble) : regField (fieldReg f) = f := rfl

/-- The field of a register, written as the number's four bits. -/
theorem regField_eq (x : Fin 16) : regField x = BitVec.ofNat 4 x.val := by
  apply BitVec.eq_of_toNat_eq
  simp [regField]

/-- An address field is its top four bits before its low byte. -/
theorem addr_append (addr : Addr12) : (addr.extractLsb' 8 4 ++ addr.extractLsb' 0 8 : Addr12) = addr :=
  append_extract (m := 4) (n := 8) addr

/-- A word is its two bytes. -/
theorem highByte_append_lowByte (w : Word) : (highByte w ++ lowByte w : Word) = w :=
  append_extract (m := 8) (n := 8) w

/-- A byte is its two nibbles. -/
theorem highNibble_append_lowNibble (b : Byte) : (highNibble b ++ lowNibble b : Byte) = b :=
  append_extract (m := 4) (n := 4) b

/-- The F_ADDR word as two bytes. -/
theorem packAddr_eq (op : Nibble) (addr : Addr12) :
    packAddr op addr = ((op ++ addr.extractLsb' 8 4 : Byte) ++ addr.extractLsb' 0 8 : Word) := by
  have h : ((op ++ addr.extractLsb' 8 4 : Byte) ++ addr.extractLsb' 0 8 : Word) =
      op ++ (addr.extractLsb' 8 4 ++ addr.extractLsb' 0 8 : Addr12) := BitVec.append_assoc
  rw [h, addr_append]
  rfl

/-! ## Masks -/

/-- Two masks side by side. -/
theorem and_mask {m n : Nat} (a a' : BitVec m) (b b' : BitVec n) : (a ++ b) &&& (a' ++ b') = (a &&& a') ++ (b &&& b') :=
  BitVec.and_append

theorem nibble_mask (a : Nibble) : a &&& 15#4 = a := BitVec.and_allOnes

theorem byte_mask (a : Byte) : a &&& 255#8 = a := BitVec.and_allOnes

theorem packXKK_mask_op (op : Nibble) (x : Reg) (kk : Byte) : packXKK op x kk &&& 0xF000 = packXKK op 0 0 := by
  show ((op ++ regField x : Byte) ++ kk : Word) &&& ((0xF#4 ++ 0#4 : Byte) ++ 0#8 : Word) = _
  rw [and_mask, and_mask]
  simp [packXKK, regField, nibble_mask]

theorem packXKK_mask_low (op : Nibble) (x : Reg) (kk : Byte) : packXKK op x kk &&& 0xF0FF = packXKK op 0 kk := by
  show ((op ++ regField x : Byte) ++ kk : Word) &&& ((0xF#4 ++ 0#4 : Byte) ++ 0xFF#8 : Word) = _
  rw [and_mask, and_mask]
  simp [packXKK, regField, nibble_mask, byte_mask]

theorem packXYN_mask_op (op : Nibble) (x y : Reg) (n : Nibble) : packXYN op x y n &&& 0xF000 = packXYN op 0 0 0 := by
  show ((op ++ regField x : Byte) ++ (regField y ++ n : Byte) : Word) &&&
    ((0xF#4 ++ 0#4 : Byte) ++ (0#4 ++ 0#4 : Byte) : Word) = _
  rw [and_mask, and_mask, and_mask]
  simp [packXYN, regField, nibble_mask]

theorem packXYN_mask_low (op : Nibble) (x y : Reg) (n : Nibble) : packXYN op x y n &&& 0xF00F = packXYN op 0 0 n := by
  show ((op ++ regField x : Byte) ++ (regField y ++ n : Byte) : Word) &&&
    ((0xF#4 ++ 0#4 : Byte) ++ (0#4 ++ 0xF#4 : Byte) : Word) = _
  rw [and_mask, and_mask, and_mask]
  simp [packXYN, regField, nibble_mask]

theorem packAddr_mask (op : Nibble) (addr : Addr12) : packAddr op addr &&& 0xF000 = packAddr op 0 := by
  show (op ++ addr : Word) &&& (0xF#4 ++ 0#12 : Word) = _
  rw [and_mask]
  simp [packAddr, nibble_mask]

end Sys2Proof
end

