-- ==== Sys2Proof/Laws/Exec.lean ====
section
/-!
SUPPORT. What a step, and each instruction with more than one ending, can do, said once: if it answers `next t`, then one
of these cases holds. The other instructions have one ending, their definition.
-/
namespace Sys2Proof.Machine

variable {s t : State}

/-! ## The step -/

/-- A step that gets past the fetch: decode, tick, Execute. -/
theorem step_fetched (h : s.halted = false) (hp : s.pc.toNat + 1 < 0x1000) :
    step s =
      match decode (Memory.read s.mem s.pc.toNat) (Memory.read s.mem (s.pc.toNat + 1)) with
      | .known i => exec i (tick { s with pc := s.pc + 2 })
      | .unknown high low => execUnknown high low (tick { s with pc := s.pc + 2 }) := by
  refine (if_neg (by rw [h]; decide)).trans ?_
  exact fetch_ok s hp ▸ rfl

/-- If a step answers `next t`, the core was not halted, and: the fetch faulted; or an instruction executed; or an
Unknown word did. -/
theorem step_cases (h : step s = .next t) :
    s.halted = false ∧
      ((0x1000 ≤ s.pc.toNat + 1 ∧
          t = raiseAt s.pc .memRange (if 0x1000 ≤ s.pc.toNat then s.pc else s.pc + 1) s) ∨
        (s.pc.toNat + 1 < 0x1000 ∧ ∃ i,
          decode (Memory.read s.mem s.pc.toNat) (Memory.read s.mem (s.pc.toNat + 1)) = .known i ∧
          exec i (tick { s with pc := s.pc + 2 }) = .next t) ∨
        (s.pc.toNat + 1 < 0x1000 ∧ ∃ high low,
          decode (Memory.read s.mem s.pc.toNat) (Memory.read s.mem (s.pc.toNat + 1)) = .unknown high low ∧
          t = raise .illegalInstruction (high ++ low) (tick { s with pc := s.pc + 2 }))) := by
  have hh : s.halted = false := by
    by_contra hc
    simp [step, Bool.not_eq_false _ ▸ hc] at h
  refine ⟨hh, ?_⟩
  by_cases hp : s.pc.toNat + 1 < 0x1000
  · rw [step_fetched hh hp] at h
    split at h
    · exact .inr (.inl ⟨hp, _, ‹_›, h⟩)
    · exact .inr (.inr ⟨hp, _, _, ‹_›, (Host.Outcome.next.inj h).symm⟩)
  · refine .inl ⟨by omega, ?_⟩
    simp only [step, hh, Bool.false_eq_true, if_false, fetch_fault s (by omega)] at h
    exact (Host.Outcome.next.inj h).symm

/-! ## Instructions with more than one ending -/

theorem execRet_cases (h : execRet s = .next t) :
    (∃ k : Fin 16, s.sp.val = k.val + 1 ∧ t = { s with pc := s.stk[k], sp := ⟨k.val, by omega⟩ }) ∨
      (s.sp.val = 0 ∧ t = raise .stackUnderflow 0 s) := by
  unfold execRet at h
  by_cases h0 : s.sp.val = 0
  · rw [pop_fault s h0] at h
    exact .inr ⟨h0, (Host.Outcome.next.inj h).symm⟩
  · rw [pop_ok s h0] at h
    exact .inl ⟨⟨s.sp.val - 1, by omega⟩, by simp only; omega, (Host.Outcome.next.inj h).symm⟩

theorem execCall_cases {addr : Addr12} (h : execCall addr s = .next t) :
    (∃ h : s.sp.val < 16,
        t = { s with pc := zextAddr addr, stk := s.stk.set s.sp.val s.pc h, sp := ⟨s.sp.val + 1, by omega⟩ }) ∨
      (s.sp.val = 16 ∧ t = raise .stackOverflow 0 s) := by
  unfold execCall at h
  by_cases h0 : s.sp.val < 16
  · rw [push_ok _ s h0] at h
    exact .inl ⟨h0, (Host.Outcome.next.inj h).symm⟩
  · rw [push_fault _ s (by omega)] at h
    exact .inr ⟨by omega, (Host.Outcome.next.inj h).symm⟩

/-- The storing instructions: all bytes are stored, or those before the first address out of range. -/
theorem storeBytes_cases {bs : List Byte} {a : Nat} (h : finish (storeBytes a bs s) = .next t) :
    ((bs = [] ∨ a + bs.length ≤ 0x1000) ∧ t = { s with mem := loadBytes a bs s.mem }) ∨
      ((bs ≠ [] ∧ 0x1000 < a + bs.length) ∧ t = raise .memRange (BitVec.ofNat 16 (max a 0x1000))
        { s with mem := loadBytes a (bs.take (0x1000 - a)) s.mem }) := by
  rw [storeBytes_eq] at h
  split at h
  · exact .inl ⟨‹_›, (Host.Outcome.next.inj h).symm⟩
  · rename_i hc
    exact .inr ⟨⟨fun e => hc (.inl e), by by_contra e; exact hc (.inr (by omega))⟩, (Host.Outcome.next.inj h).symm⟩

/-- The storing instructions change the memory and, on a fault, the latch; the memory stays canonical. -/
theorem storeBytes_shape {bs : List Byte} {a : Nat} (h : finish (storeBytes a bs s) = .next t) :
    ∃ m halted code pc info,
      t = { s with mem := m, halted := halted, faultCode := code, faultPc := pc, faultInfo := info } ∧
      (Memory.wf s.mem → Memory.wf m) := by
  rcases storeBytes_cases h with ⟨hc, rfl⟩ | ⟨-, rfl⟩
  · refine ⟨_, s.halted, s.faultCode, s.faultPc, s.faultInfo, rfl, fun hw => ?_⟩
    rcases hc with rfl | hc
    · exact hw
    · exact Memory.wf_loadBytes _ _ _ hc hw
  · refine ⟨_, _, _, _, _, rfl, fun hw => ?_⟩
    by_cases ha : a ≤ 0x1000
    · exact Memory.wf_loadBytes _ _ _ (by rw [List.length_take, Config.memSize]; omega) hw
    · rw [show 0x1000 - a = 0 by omega]
      exact hw

/-- LDV changes registers of its range and, on a fault, the latch. -/
theorem execLdv_shape {x : Reg} (h : execLdv x s = .next t) :
    ∃ v halted code pc info,
      t = { s with v := v, halted := halted, faultCode := code, faultPc := pc, faultInfo := info } ∧
      ∀ q : Reg, ¬ q < x → v[q] = s.getV q := by
  rw [execLdv, loadRegs_eq] at h
  split at h
  · obtain ⟨v, hd⟩ := fillRegs_eq (bulkRegs x) (dataAddr s 0) s
    have hq := getV_fillRegs_bulk x (dataAddr s 0) s
    rw [hd] at h hq
    exact ⟨v, s.halted, s.faultCode, s.faultPc, s.faultInfo, (Host.Outcome.next.inj h).symm,
      fun q hn => (hq q).trans (if_neg hn)⟩
  · rw [bulkRegs_take] at h
    obtain ⟨v, hd⟩ := fillRegs_eq (bulkRegs ⟨min (0x1000 - dataAddr s 0) x.val, by omega⟩) (dataAddr s 0) s
    have hq := getV_fillRegs_bulk ⟨min (0x1000 - dataAddr s 0) x.val, by omega⟩ (dataAddr s 0) s
    rw [hd] at h hq
    refine ⟨v, _, _, _, _, (Host.Outcome.next.inj h).symm, fun q hn => (hq q).trans (if_neg fun hlt => hn ?_)⟩
    exact Fin.lt_def.mpr (lt_of_lt_of_le (Fin.lt_def.mp hlt) (Nat.min_le_right _ _))

/-- DRW changes the framebuffer, VF (not for n = 0) and, on a fault, the latch. -/
theorem execDrw_shape {x y : Reg} {n : Fin 16} (h : execDrw x y n s = .next t) :
    ∃ v fb halted code pc info,
      t = { s with v := v, fb := fb, halted := halted, faultCode := code, faultPc := pc, faultInfo := info } ∧
      ∀ q : Reg, q ≠ 15 ∨ n = 0 → v[q] = s.getV q := by
  rw [execDrw, drawRows_eq] at h
  split at h
  · by_cases hn : n = 0
    · subst hn
      exact ⟨s.v, s.fb, s.halted, s.faultCode, s.faultPc, s.faultInfo, (Host.Outcome.next.inj h).symm, fun q _ => rfl⟩
    · obtain ⟨v, fb, hd, hv⟩ := paintRows_eq (s.getV x) (s.getV y) n.val 0 s
      rw [hd] at h
      exact ⟨v, fb, s.halted, s.faultCode, s.faultPc, s.faultInfo, (Host.Outcome.next.inj h).symm,
        fun q hq => hv q (hq.resolve_right hn)⟩
  · rename_i hc
    obtain ⟨v, fb, hd, hv⟩ := paintRows_eq (s.getV x) (s.getV y) (0x1000 - (s.i.toNat + 0)) 0 s
    rw [hd] at h
    have hn : n ≠ 0 := fun e => hc (.inl (congrArg Fin.val e))
    exact ⟨v, fb, _, _, _, _, (Host.Outcome.next.inj h).symm, fun q hq => hv q (hq.resolve_right hn)⟩

end Sys2Proof.Machine
end

