-- ==== Sys2Proof/Laws/PerInstr.lean ====
section
/-!
SUPPORT. Laws stated once per instruction. EncodedWord: the word the encoder gives an instruction is taken by that
instruction's own row of spec/opcode_table.json, and so is well formed.
-/
namespace Sys2Proof.Laws.EncodedWord

open Sys2Proof

/-- Some row of the opcode table bears the instruction's mnemonic and takes its encoded word. -/
def Statement (i : Instr) : Prop :=
  ∃ row ∈ opcodeTable, row.mnemonic = i.mnemonic ∧ row.takes (encode i) = true

/-- The row, named, and what its mask leaves of the word. -/
theorem of_row (i : Instr) (row : OpcodeRow) (hm : row ∈ opcodeTable) (hn : row.mnemonic = i.mnemonic)
    (hw : encode i &&& row.mask = row.pattern) : Statement i :=
  ⟨row, hm, hn, by simp [OpcodeRow.takes, hw]⟩

theorem cls : Statement .cls :=
  of_row _ ⟨"CLS", 0x00E0, 0xF0FF⟩ (by decide) rfl (packXKK_mask_low 0x0 0 0xE0)

theorem ret : Statement .ret :=
  of_row _ ⟨"RET", 0x00EE, 0xF0FF⟩ (by decide) rfl (packXKK_mask_low 0x0 0 0xEE)

theorem jp (addr : Addr12) : Statement (.jp addr) :=
  of_row _ ⟨"JP", 0x1000, 0xF000⟩ (by decide) rfl (packAddr_mask 0x1 addr)

theorem call (addr : Addr12) : Statement (.call addr) :=
  of_row _ ⟨"CALL", 0x2000, 0xF000⟩ (by decide) rfl (packAddr_mask 0x2 addr)

theorem se (x : Reg) (kk : Byte) : Statement (.se x kk) :=
  of_row _ ⟨"SE", 0x3000, 0xF000⟩ (by decide) rfl (packXKK_mask_op 0x3 x kk)

theorem sne (x : Reg) (kk : Byte) : Statement (.sne x kk) :=
  of_row _ ⟨"SNE", 0x4000, 0xF000⟩ (by decide) rfl (packXKK_mask_op 0x4 x kk)

theorem ld (x : Reg) (kk : Byte) : Statement (.ld x kk) :=
  of_row _ ⟨"LD", 0x6000, 0xF000⟩ (by decide) rfl (packXKK_mask_op 0x6 x kk)

theorem add (x : Reg) (kk : Byte) : Statement (.add x kk) :=
  of_row _ ⟨"ADD", 0x7000, 0xF000⟩ (by decide) rfl (packXKK_mask_op 0x7 x kk)

theorem ldr (x y : Reg) : Statement (.ldr x y) :=
  of_row _ ⟨"LDR", 0x8000, 0xF00F⟩ (by decide) rfl (packXYN_mask_low 0x8 x y 0x0)

theorem and (x y : Reg) : Statement (.and x y) :=
  of_row _ ⟨"AND", 0x8002, 0xF00F⟩ (by decide) rfl (packXYN_mask_low 0x8 x y 0x2)

theorem xor (x y : Reg) : Statement (.xor x y) :=
  of_row _ ⟨"XOR", 0x8003, 0xF00F⟩ (by decide) rfl (packXYN_mask_low 0x8 x y 0x3)

theorem addc (x y : Reg) : Statement (.addc x y) :=
  of_row _ ⟨"ADDC", 0x8004, 0xF00F⟩ (by decide) rfl (packXYN_mask_low 0x8 x y 0x4)

theorem sub (x y : Reg) : Statement (.sub x y) :=
  of_row _ ⟨"SUB", 0x8005, 0xF00F⟩ (by decide) rfl (packXYN_mask_low 0x8 x y 0x5)

theorem ldi (addr : Addr12) : Statement (.ldi addr) :=
  of_row _ ⟨"LDI", 0xA000, 0xF000⟩ (by decide) rfl (packAddr_mask 0xA addr)

theorem rnd (x : Reg) (kk : Byte) : Statement (.rnd x kk) :=
  of_row _ ⟨"RND", 0xC000, 0xF000⟩ (by decide) rfl (packXKK_mask_op 0xC x kk)

theorem drw (x y : Reg) (n : Fin 16) : Statement (.drw x y n) :=
  of_row _ ⟨"DRW", 0xD000, 0xF000⟩ (by decide) rfl (packXYN_mask_op 0xD x y (regField n))

theorem dtld (x : Reg) : Statement (.dtld x) :=
  of_row _ ⟨"DTLD", 0xF007, 0xF0FF⟩ (by decide) rfl (packXKK_mask_low 0xF x 0x07)

theorem lddt (x : Reg) : Statement (.lddt x) :=
  of_row _ ⟨"LDDT", 0xF015, 0xF0FF⟩ (by decide) rfl (packXKK_mask_low 0xF x 0x15)

theorem ldst (x : Reg) : Statement (.ldst x) :=
  of_row _ ⟨"LDST", 0xF018, 0xF0FF⟩ (by decide) rfl (packXKK_mask_low 0xF x 0x18)

theorem addi (x : Reg) : Statement (.addi x) :=
  of_row _ ⟨"ADDI", 0xF01E, 0xF0FF⟩ (by decide) rfl (packXKK_mask_low 0xF x 0x1E)

theorem ldf (x : Reg) : Statement (.ldf x) :=
  of_row _ ⟨"LDF", 0xF029, 0xF0FF⟩ (by decide) rfl (packXKK_mask_low 0xF x 0x29)

theorem ldb (x : Reg) : Statement (.ldb x) :=
  of_row _ ⟨"LDB", 0xF033, 0xF0FF⟩ (by decide) rfl (packXKK_mask_low 0xF x 0x33)

theorem ldrm (x : Reg) : Statement (.ldrm x) :=
  of_row _ ⟨"LDRM", 0xF055, 0xF0FF⟩ (by decide) rfl (packXKK_mask_low 0xF x 0x55)

theorem ldv (x : Reg) : Statement (.ldv x) :=
  of_row _ ⟨"LDV", 0xF065, 0xF0FF⟩ (by decide) rfl (packXKK_mask_low 0xF x 0x65)

end Sys2Proof.Laws.EncodedWord
end

