-- ==== Sys2Proof/Tests/Slice0.lean ====
section
/-!
SUPPORT. Small tests, each on one step or one decoding, with expected results from the spec: spec/95_test_vectors.md (the
vector's id stands in each comment) and the encodings of spec/30_encoding.md R57 written out by hand. After them, for
each obligation with hypotheses, a concrete state and operands that meet all of them, at the boundaries of its clauses.
-/
namespace Sys2Proof.Tests

open Sys2Proof Sys2Proof.Machine

/-- The next state of an outcome. -/
def after : Result → State
  | .next s => s
  | .fault _ => State.reset
  | .refused _ => State.reset

/-- One step of the word `w`, placed at PC. -/
def run (w : Nat) (s : State) : State := after (step (s.withFetchWord 16 w))

/-- The reset state with registers written, in order. -/
def regs (l : List (Reg × Byte)) : State := l.foldl (fun s p => s.setV p.1 p.2) State.reset

/-- The state with bytes written from `a` up. -/
def put (a : Nat) (bs : List Byte) (s : State) : State := { s with mem := loadBytes a bs s.mem }

/-- The state's memory from `a` up, `n` bytes. -/
def peek (a n : Nat) (s : State) : List Byte := (List.range n).map fun k => Memory.read s.mem (a + k)

/-- The latch as fault code, FAULT_PC, FAULT_INFO. -/
def latch (s : State) : Bool × BitVec 3 × Word × Word := (s.halted, portFaultCode s, s.faultPc, s.faultInfo)

/-- The lit pixels of a framebuffer row. -/
def lit (r : Fin 32) (s : State) : List (Fin 64) := (List.finRange 64).filter fun c => s.pixel c r

/-! ## WellFormed: words the check refuses (30_encoding.md R56), and words it takes (R57) -/

theorem test_wordWellFormed_refuses :
    [0x0000, 0x00E1, 0x5120, 0x8121, 0x8126, 0x812E, 0x9120, 0xB123, 0xE19E, 0xF00A, 0xF066, 0xFFFF].map wordWellFormed =
      List.replicate 12 false := by decide

theorem test_wordWellFormed_takes :
    [0x00E0, 0x05E0, 0x0AEE, 0x1ABC, 0x8AB5, 0xD12F, 0xFF65].map wordWellFormed = List.replicate 7 true := by decide

/-! ## Decoding: one word of every instruction, written from 30_encoding.md R57 -/

theorem test_decode_cls : decode 0x00 0xE0 = .known .cls := by decide
theorem test_decode_ret : decode 0x00 0xEE = .known .ret := by decide
theorem test_decode_jp : decode 0x1A 0xBC = .known (.jp 0xABC) := by decide
theorem test_decode_call : decode 0x23 0x04 = .known (.call 0x304) := by decide
theorem test_decode_se : decode 0x3F 0x01 = .known (.se 0xF 0x01) := by decide
theorem test_decode_sne : decode 0x43 0x42 = .known (.sne 3 0x42) := by decide
theorem test_decode_ld : decode 0x61 0x1F = .known (.ld 1 0x1F) := by decide
theorem test_decode_add : decode 0x72 0x20 = .known (.add 2 0x20) := by decide
theorem test_decode_ldr : decode 0x81 0x50 = .known (.ldr 1 5) := by decide
theorem test_decode_and : decode 0x8A 0x12 = .known (.and 0xA 1) := by decide
theorem test_decode_xor : decode 0x81 0x23 = .known (.xor 1 2) := by decide
theorem test_decode_addc : decode 0x84 0x54 = .known (.addc 4 5) := by decide
theorem test_decode_sub : decode 0x8A 0xB5 = .known (.sub 0xA 0xB) := by decide
theorem test_decode_ldi : decode 0xA3 0x05 = .known (.ldi 0x305) := by decide
theorem test_decode_rnd : decode 0xC4 0x0F = .known (.rnd 4 0x0F) := by decide
theorem test_decode_drw : decode 0xD1 0x2F = .known (.drw 1 2 15) := by decide
theorem test_decode_dtld : decode 0xF3 0x07 = .known (.dtld 3) := by decide
theorem test_decode_lddt : decode 0xF2 0x15 = .known (.lddt 2) := by decide
theorem test_decode_ldst : decode 0xF1 0x18 = .known (.ldst 1) := by decide
theorem test_decode_addi : decode 0xF1 0x1E = .known (.addi 1) := by decide
theorem test_decode_ldf : decode 0xFA 0x29 = .known (.ldf 0xA) := by decide
theorem test_decode_ldb : decode 0xFB 0x33 = .known (.ldb 0xB) := by decide
theorem test_decode_ldrm : decode 0xF2 0x55 = .known (.ldrm 2) := by decide
theorem test_decode_ldv : decode 0xFF 0x65 = .known (.ldv 0xF) := by decide

/-- D-8, D-13: OR and the key-wait of other designs are Unknown, their bytes kept. -/
theorem test_decode_unknown :
    decode 0x81 0x21 = .unknown 0x81 0x21 ∧ decode 0xF0 0x0A = .unknown 0xF0 0x0A := by decide

/-- The encodings of 30_encoding.md R57, the other way. -/
theorem test_encode : [Instr.cls, .call 0x304, .sne 3 0x42, .sub 0xA 0xB, .drw 1 2 15, .ldf 0xA].map encode =
    [0x00E0, 0x2304, 0x4342, 0x8AB5, 0xD12F, 0xFA29] := by decide

/-! ## Sequencer -/

/-- S-2: the tick, and PC. -/
theorem test_tick : let t := run 0x6000 { State.reset with dt := 3, st := 1 }
    (t.dt, t.st, t.pc) = (2, 0, 0x202) := by decide

/-- S-3, S-4: a fetch fault at 0xFFF leaves PC and DT. -/
theorem test_fetch_fault : let t := after (step { State.reset with pc := 0xFFF, dt := 2 })
    (latch t, t.pc, t.dt) = ((true, 4, 0xFFF, 0x1000), 0xFFF, 2) := by decide

/-- C-15: a fetch at 0x1000. -/
theorem test_fetch_fault_at_0x1000 :
    latch (after (step { State.reset with pc := 0x1000 })) = (true, 4, 0x1000, 0x1000) := by decide

/-- E13, P4b: an Unknown word faults after the tick. -/
theorem test_unknown : let t := run 0x8121 { State.reset with dt := 5 }
    (latch t, t.pc, t.dt) = ((true, 1, 0x200, 0x8121), 0x202, 4) := by decide

/-- R-1: an empty ROM faults on 0x0000. -/
theorem test_empty_rom : latch (after (step (portReset [] State.reset))) = (true, 1, 0x200, 0x0000) := by decide

/-! ## Control transfer -/

/-- C-7 and C-9: last in, first out. -/
theorem test_ret : let t := run 0x00EE { State.reset with sp := 2, stk := (State.reset.stk.set 0 0x202).set 1 0x304 }
    (t.pc, t.sp) = (0x304, 1) := by decide

/-- C-8. -/
theorem test_ret_underflow : let t := run 0x00EE State.reset
    (latch t, t.pc, t.sp) = ((true, 2, 0x200, 0), 0x202, 0) := by decide

/-- C-2: odd targets are legal. -/
theorem test_jp_odd : (run 0x1201 State.reset).pc = 0x201 := by decide

/-- C-4. -/
theorem test_call : let t := run 0x2300 State.reset
    (t.stk[0], t.sp, t.pc) = (0x202, 1, 0x300) := by decide

/-- C-6. -/
theorem test_call_overflow : let t := run 0x2300 { State.reset with sp := 16 }
    (latch t, t.pc, t.sp) = ((true, 3, 0x200, 0), 0x202, 16) := by decide

/-- C-10, C-11. -/
theorem test_se : (run 0x3342 (regs [(3, 0x42)])).pc = 0x204 ∧ (run 0x3342 (regs [(3, 0x41)])).pc = 0x202 := by decide

/-- C-12, C-13. -/
theorem test_sne : (run 0x4342 (regs [(3, 0x41)])).pc = 0x204 ∧ (run 0x4342 (regs [(3, 0x42)])).pc = 0x202 := by decide

/-! ## ALU -/

/-- A-1. -/
theorem test_ld : (run 0x611F State.reset).getV 1 = 0x1F := by decide

/-- A-3: wraps, VF untouched. -/
theorem test_add_wraps : let t := run 0x7220 (regs [(2, 0xF0), (15, 7)])
    (t.getV 2, t.getV 15) = (0x10, 7) := by decide

/-- A-6. -/
theorem test_ldr : let t := run 0x8150 (regs [(5, 0x33)])
    (t.getV 1, t.getV 5) = (0x33, 0x33) := by decide

/-- A-7. -/
theorem test_and : (run 0x8A12 (regs [(0xA, 0xCC), (1, 0x0F)])).getV 0xA = 0x0C := by decide

/-- A-8. -/
theorem test_xor : (run 0x8123 (regs [(1, 0xF0), (2, 0x3C)])).getV 1 = 0xCC := by decide

/-- A-10, A-12: 256 overflows and discards the sum; no overflow leaves VF. -/
theorem test_addc : let t := run 0x8454 (regs [(4, 0x80), (5, 0x80)])
    let u := run 0x8454 (regs [(4, 0x10), (5, 0x20), (15, 1)])
    (t.getV 4, t.getV 15, u.getV 4, u.getV 15) = (0x80, 1, 0x30, 1) := by decide

/-- A-14, A-15: VF as the destination. -/
theorem test_addc_vf : (run 0x8F14 (regs [(15, 0x80), (1, 0x80)])).getV 15 = 1 ∧
    (run 0x8F14 (regs [(15, 0x10), (1, 0x20)])).getV 15 = 0x30 := by decide

/-- A-17, A-20: equality does nothing; VF as a source is read before it is written. -/
theorem test_sub : let t := run 0x8125 (regs [(1, 0x10), (2, 0x10)])
    let u := run 0x81F5 (regs [(1, 0x07), (15, 0x05)])
    (t.getV 1, t.getV 15, u.getV 1, u.getV 15) = (0x10, 0, 0x02, 1) := by decide

/-- A-19: with VF as the destination the register write follows the flag write. -/
theorem test_sub_vf : (run 0x8F15 (regs [(15, 0x30), (1, 0x10)])).getV 15 = 0x20 := by decide

/-- A-22: the mask 0 gives 0 whatever the byte is, and one byte is taken. -/
theorem test_rnd : ∃ t, execRnd 0 0 State.reset = .next t ∧ t.getV 0 = 0 ∧ t.rndCount = 1 :=
  ⟨_, rfl, by simp [State.getV, State.setV], rfl⟩

/-! ## Index register and memory -/

/-- M-1. -/
theorem test_ldi : (run 0xA300 State.reset).i = 0x0300 := by decide

/-- M-2, M-4: wraps at 16 bits. -/
theorem test_addi : (run 0xF11E { regs [(1, 5)] with i := 0x300 }).i = 0x0305 ∧
    (run 0xF01E { regs [(0, 2)] with i := 0xFFFF }).i = 0x0001 := by decide

/-- M-5, M-8: full width. -/
theorem test_ldf : (run 0xF029 (regs [(0, 0x0A)])).i = 0x0032 ∧ (run 0xF029 (regs [(0, 0xFF)])).i = 0x04FB := by decide

/-- M-9, M-11. -/
theorem test_ldb : peek 0x300 3 (run 0xF033 { regs [(0, 0x9C)] with i := 0x300 }) = [1, 5, 6] ∧
    peek 0x300 3 (run 0xF033 { regs [(0, 0xFF)] with i := 0x300 }) = [2, 5, 5] := by decide

/-- M-12: the bytes before the fault are stored. -/
theorem test_ldb_fault : let t := run 0xF033 { regs [(0, 0x9C)] with i := 0xFFE }
    (peek 0xFFE 2 t, latch t, t.pc) = ([1, 5], (true, 4, 0x200, 0x1000), 0x202) := by decide

/-- M-13: x is an exclusive bound. -/
theorem test_ldrm : let t := run 0xF255 { regs [(0, 1), (1, 5), (2, 6)] with i := 0x305 }
    (peek 0x305 3 t, t.i) = ([1, 5, 0], 0x305) := by decide

/-- M-16. -/
theorem test_ldrm_fault : let t := run 0xF455 { regs [(0, 0x11), (1, 0x22), (2, 0x33)] with i := 0xFFE }
    (peek 0xFFE 2 t, latch t) = ([0x11, 0x22], (true, 4, 0x200, 0x1000)) := by decide

/-- M-17: Vx itself is not loaded. -/
theorem test_ldv : let t := run 0xF365 (put 0x300 [1, 5, 6, 0] { regs [(3, 0x77)] with i := 0x300 })
    ([0, 1, 2, 3].map t.getV, t.i) = ([1, 5, 6, 0x77], 0x300) := by decide

/-- M-18, M-19: nothing to load cannot fault; the first load can. -/
theorem test_ldv_fault : (run 0xF065 { State.reset with i := 0x1000 }).halted = false ∧
    latch (run 0xF165 { State.reset with i := 0x1000 }) = (true, 4, 0x200, 0x1000) := by decide

/-- M-20, R-5: glyphs 0 and F of the font. -/
theorem test_font : peek 0 5 State.reset = [0xF0, 0x90, 0x90, 0x90, 0xF0] ∧
    peek 0x4B 6 State.reset = [0xF0, 0x80, 0xF0, 0x80, 0x80, 0x00] := by decide

/-! ## Display -/

/-- G-10: VF is not changed. -/
theorem test_cls : let t := run 0x00E0 ((regs [(15, 9)]).setPixel 3 4 true)
    (t.pixel 3 4, t.getV 15) = (false, 9) := by decide

/-- G-5: wraps at the right edge and at the bottom. -/
theorem test_drw_wraps : let t := run 0xD012 (put 0x230 [0x81, 0xFF] { regs [(0, 60), (1, 31)] with i := 0x230 })
    (lit 31 t, lit 0 t, t.getV 15) = ([3, 60], [0, 1, 2, 3, 60, 61, 62, 63], 0) := by decide

/-- G-3, G-4: only the last bit's collision shows in VF. -/
theorem test_drw_collision :
    let t := run 0xD011 (put 0x230 [0x80] { State.reset.setPixel 0 0 true with i := 0x230 })
    let u := run 0xD011 (put 0x230 [0x01] { State.reset.setPixel 7 0 true with i := 0x230 })
    (lit 0 t, t.getV 15, lit 0 u, u.getV 15) = ([], 0, [], 1) := by decide

/-- G-8: the rows before the fault are drawn. -/
theorem test_drw_fault : let t := run 0xD012 (put 0xFFF [0xC0] { State.reset with i := 0xFFF })
    (lit 0 t, latch t) = ([0, 1], (true, 4, 0x200, 0x1000)) := by decide

/-! ## Timers -/

/-- T-1: DTLD sees the tick. -/
theorem test_dtld : let t := run 0xF307 { State.reset with dt := 5 }
    (t.dt, t.getV 3) = (4, 4) := by decide

/-- T-4: the written value is not ticked by its own step. -/
theorem test_lddt : (run 0xF215 { State.reset with dt := 9 }).dt = 0 ∧ (run 0xF215 (regs [(2, 3)])).dt = 3 := by decide

/-- T-5, T-6. -/
theorem test_ldst : let t := run 0xF118 (regs [(1, 2)])
    (t.st, portSound t, portSound (run 0xF118 { State.reset with st := 5 })) = (2, true, false) := by decide

/-! ## Reset and ports -/

/-- E12: the ROM lies at 0x200, high byte first. -/
theorem test_reset_rom : let t := portReset [0x12, 0x00] { State.reset with halted := true, faultCode := .memRange }
    (peek 0x200 3 t, t.pc, t.halted) = ([0x12, 0x00, 0x00], 0x200, false) := by decide

/-- R-3: a ROM of 3585 bytes. -/
theorem test_reset_too_large : latch (portReset (List.replicate 3585 7) State.reset) = (true, 5, 0x200, 0) := by
  have h : Config.maxRom < (List.replicate 3585 (7 : Byte)).length := by
    rw [List.length_replicate]; decide
  rw [portReset, if_pos h]
  rfl

/-- 60_exceptions.md R112, R115: KEY[15] is set; index 16 is refused. -/
theorem test_set_key : (after (portSetKey 15 State.reset)).key[15] = true ∧
    portSetKey 16 State.reset = .refused (.keyIndex 16) := ⟨by decide, rfl⟩

/-- 70_reset_and_hazards.md R127: ROM 00EE 1202 halts in its first step with PC at the word 0x1202, no good end; ROM 1200
is at its good end from reset on. -/
theorem test_self_loop : let t := after (step (portReset [0x00, 0xEE, 0x12, 0x02] State.reset))
    (t.halted, t.pc, selfLoop t) = (true, 0x202, false) ∧ selfLoop (portReset [0x12, 0x00] State.reset) = true := by decide

/-! ## Witnesses: each obligation's hypotheses are met -/

theorem witness_EncodeInvertsDecode :
    decodeWord 0x05E0 = .known .cls ∧ decodeWord 0x0AEE = .known .ret ∧ decodeWord 0x1FFF = .known (.jp 0xFFF) := by decide

theorem witness_DecoderAgreesWithOpcodeTable : (⟨"LDV", 0xF065, 0xF0FF⟩ : OpcodeRow) ∈ opcodeTable := by decide

/-- PC = 0xFFE, the last address a fetch reads from, holding JP 0xFFE. -/
def atTop (w : Nat) : State := State.withFetchWord { State.reset with pc := 0xFFE } 16 w

theorem witness_StepRunsDecodedInstruction : (atTop 0x1FFE).halted = false ∧ (atTop 0x1FFE).pc.toNat + 1 < 0x1000 ∧
    decodedAtPc (atTop 0x1FFE) = .known (.jp 0xFFE) := by decide

theorem witness_FetchFaultLeavesPcAndTimers :
    let s : State := { State.reset with pc := 0xFFF }
    let u : State := { State.reset with pc := 0x1000 }
    (s.halted = false ∧ 0x1000 ≤ s.pc.toNat + 1) ∧ (u.halted = false ∧ 0x1000 ≤ u.pc.toNat + 1) := by decide

theorem witness_UnknownWordFaults : State.reset.halted = false ∧ State.reset.pc.toNat + 1 < 0x1000 ∧
    decodedAtPc State.reset = .unknown 0 0 := by decide

theorem witness_HaltedCoreHasNoStep : (after (step State.reset)).halted = true := by decide

/-- The word LD V0, 0 at 0xFFE, for a step that ticks; and a fetch that faults. -/
theorem witness_TimersTickOncePerExecutedInstruction :
    (atTop 0x6000).halted = false ∧ (atTop 0x6000).pc.toNat + 1 < 0x1000 ∧ (∃ t, step (atTop 0x6000) = .next t) ∧
    decodedAtPc (atTop 0x6000) = .known (.ld 0 0) ∧
    0x1000 ≤ ({ State.reset with pc := 0xFFF } : State).pc.toNat + 1 ∧
    (∃ t, step { State.reset with pc := 0xFFF } = .next t) ∧ (after (step State.reset)).halted = true := by
  refine ⟨by decide, by decide, ⟨_, rfl⟩, by decide, by decide, ⟨_, rfl⟩, by decide⟩

theorem witness_UnhaltedCoreAlwaysSteps : State.reset.halted = false := by decide

theorem witness_SelfLoopOnlyTicks : selfLoop (atTop 0x1FFE) = true ∧ (after (step State.reset)).halted = true := by decide

/-- A state whose stack holds `n` entries. -/
def depth (n : Fin 17) : State := { State.reset with sp := n }

theorem witness_RetPopsPc : (depth 1).sp.val = (0 : Fin 16).val + 1 ∧ (depth 16).sp.val = (15 : Fin 16).val + 1 ∧
    (depth 0).sp.val = 0 := by decide

theorem witness_CallPushesPc : (depth 0).sp.val = (0 : Fin 16).val ∧ (depth 15).sp.val = (15 : Fin 16).val ∧
    (depth 16).sp.val = 16 := by decide

theorem witness_RetUndoesCall : (depth 15).sp.val = (15 : Fin 16).val := by decide

theorem witness_AddcDiscardsOnOverflow :
    (let s := regs [(4, 0x80), (5, 0x80)]; 256 ≤ (s.getV 4).toNat + (s.getV 5).toNat) ∧
    (let s := regs [(4, 0xFE), (5, 0x01)]; (s.getV 4).toNat + (s.getV 5).toNat < 256) := by decide

theorem witness_SubActsOnlyWithoutBorrow :
    (let s := regs [(1, 1)]; (s.getV 2).toNat < (s.getV 1).toNat) ∧
    (let s := regs [(1, 1), (2, 1)]; (s.getV 1).toNat ≤ (s.getV 2).toNat) ∧ (1 : Reg) ≠ 15 := by decide

theorem witness_OnlyRndTakesRandomBytes :
    (∀ x kk, Instr.cls ≠ .rnd x kk) ∧ ∃ t, exec .cls State.reset = .next t :=
  ⟨fun _ _ h => Instr.noConfusion h, _, rfl⟩

/-- A state with I set. -/
def index (i : Word) : State := { State.reset with i := i }

theorem witness_LdbStoresDecimalDigits : (index 0xFFD).i.toNat + 2 < 0x1000 ∧ 0x1000 ≤ (index 0xFFE).i.toNat + 2 ∧
    0x1000 ≤ (index 0xFFFF).i.toNat + 2 ∧ (index 0xFFE).i.toNat + 1 < 0x1000 := by decide

/-- For LDRM and LDV alike: nothing to move at an address that does not exist, two registers up to the last address, one
too many, and none at all in range. -/
theorem witness_LdrmStoresRegisters_LdvLoadsRegisters :
    ((0 : Reg) = 0 ∨ (index 0xFFFF).i.toNat + (0 : Reg).val ≤ 0x1000) ∧
    ((2 : Reg) = 0 ∨ (index 0xFFE).i.toNat + (2 : Reg).val ≤ 0x1000) ∧
    ((3 : Reg) ≠ 0 ∧ 0x1000 < (index 0xFFE).i.toNat + (3 : Reg).val) ∧
    ((1 : Reg) ≠ 0 ∧ 0x1000 < (index 0x1000).i.toNat + (1 : Reg).val) := by decide

theorem witness_DrwComposesSprite :
    ((0 : Fin 16) = 0 ∨ (index 0xFFFF).i.toNat + (0 : Fin 16).val ≤ 0x1000) ∧
    ((15 : Fin 16) = 0 ∨ (index 0xFF1).i.toNat + (15 : Fin 16).val ≤ 0x1000) ∧
    ((2 : Fin 16) ≠ 0 ∧ 0x1000 < (index 0xFFF).i.toNat + (2 : Fin 16).val) ∧
    isSpritePixel 60 31 7 1 3 0 := by unfold isSpritePixel; decide

theorem witness_DrawingTwiceRestores : (0 : Reg) ≠ 15 ∧ (1 : Reg) ≠ 15 ∧
    ((15 : Fin 16) = 0 ∨ (index 0xFF1).i.toNat + (15 : Fin 16).val ≤ 0x1000) := by decide

/-- From reset; after LDDT or LDST the next word is 0x0000, no timer instruction, and is executed. -/
theorem witness_TimerInstructionsSeeTheTick : State.reset.halted = false ∧ State.reset.pc.toNat + 1 < 0x1000 ∧
    decodedAtPc (State.reset.withFetchWord 16 0xF307) = .known (.dtld 3) ∧
    decodedAtPc (State.reset.withFetchWord 16 0xF215) = .known (.lddt 2) ∧
    decodedAtPc (State.reset.withFetchWord 16 0xF118) = .known (.ldst 1) ∧
    (run 0xF215 State.reset).pc.toNat + 1 < 0x1000 ∧ decodedAtPc (run 0xF215 State.reset) = .unknown 0 0 ∧
    decodedAtPc (run 0xF118 State.reset) = .unknown 0 0 ∧ (∃ u, step (run 0xF215 State.reset) = .next u) ∧
    ∃ u, step (run 0xF118 State.reset) = .next u := by
  refine ⟨by decide, by decide, by decide, by decide, by decide, by decide, by decide, by decide, ⟨_, rfl⟩, _, rfl⟩

/-- One state that is not halted, in which RET faults and CLS does not. -/
theorem witness_InstructionsFaultExactlyWhen : State.reset.halted = false ∧
    (∃ t, exec .ret State.reset = .next t ∧ t.halted = true) ∧
    ∃ t, exec .cls State.reset = .next t ∧ t.halted = false :=
  ⟨rfl, ⟨_, rfl, rfl⟩, _, rfl, rfl⟩

theorem witness_OnlyNamedRegistersAreWritten :
    (∃ t, exec (.ldv 3) (index 0) = .next t) ∧ ¬ Instr.mayWriteReg (.ldv 3) 3 :=
  ⟨⟨_, rfl⟩, by unfold Instr.mayWriteReg; decide⟩

theorem witness_EachStateHasItsWriters : ∃ t, exec (.drw 0 1 15) (index 0) = .next t := ⟨_, rfl⟩

/-- For KeypadInfluencesNothing and SoundTimerInfluencesNothing: a step that answers a next state. -/
theorem witness_InfluencesNothing : ∃ t, step (State.reset.withFetchWord 16 0xF118) = .next t := ⟨_, rfl⟩

/-- For the three invariants that every step keeps: a state that meets them, and steps. -/
theorem witness_StepKeepsInvariants :
    let s := State.reset.withFetchWord 16 0x2300
    MemoryCanonical s ∧ PcBounded s ∧ LatchConsistent s ∧ ∃ t, step s = .next t := by
  refine ⟨?_, ?_, ?_, _, rfl⟩
  · unfold MemoryCanonical; decide
  · unfold PcBounded; decide
  · unfold LatchConsistent; decide

/-- Two ways to write the same bytes. -/
theorem witness_CanonicalMemoriesReadingAlikeAreEqual :
    let m := Memory.write (Memory.write [] 5 1) 3 2
    let m' := Memory.write (Memory.write [] 3 2) 5 1
    Memory.wf m ∧ Memory.wf m' ∧ ∀ a, Memory.read m a = Memory.read m' a := by
  refine ⟨by decide, by decide, fun a => ?_⟩
  simp only [Memory.read_write]
  split <;> split <;> simp_all

theorem witness_StoredWordIsFetchedNext :
    let s := { regs [(0, 0x12), (1, 0x02)] with i := 0x202, pc := 0x202 }
    s.halted = false ∧ s.i = s.pc ∧ s.pc.toNat + 1 < 0x1000 ∧ decode (s.getV 0) (s.getV 1) = .known (.jp 0x202) := by
  decide

/-- For ResetLoadsRom and ResetWithRomSatisfiesInvariants: the largest ROM that fits, and one byte more. -/
theorem witness_ResetLoadsRom : (List.replicate 3584 (7 : Byte)).length ≤ 3584 ∧
    3584 < (List.replicate 3585 (7 : Byte)).length := by
  rw [List.length_replicate, List.length_replicate]; decide

theorem witness_KeypadPortSetsOneKey : 16 ≤ 16 := by decide

end Sys2Proof.Tests
end

section
/-!
PROOFS. The frame calculus for `OnlyChanges` (frames compose and widen), the frame of each update that the step itself
makes (latch, tick, PC advance), and the two halting steps of spec/40_sequencer.md: a fetch that faults (R59) and an
Unknown word (R64).
-/
namespace Sys2Proof

open Sys2Proof.Machine

/-! ## Frames compose -/

theorem Part.same_trans {s t u : State} {p : Part} (hst : p.same s t) (htu : p.same t u) : p.same s u := by
  cases p <;> exact Eq.trans htu hst

theorem OnlyChanges.mono {ch ch' : Part → Prop} {s t : State} (h : OnlyChanges ch s t) (hsub : ∀ p, ch p → ch' p) :
    OnlyChanges ch' s t :=
  fun p hp => h p fun hc => hp (hsub p hc)

/-- Two changes after one another, both within one frame. -/
theorem OnlyChanges.trans {ch : Part → Prop} {s t u : State} (hst : OnlyChanges ch s t) (htu : OnlyChanges ch t u) :
    OnlyChanges ch s u :=
  fun p hp => Part.same_trans (hst p hp) (htu p hp)

/-! ## The frames of the step's own updates -/

theorem raiseAt_onlyChanges (cur : Word) (code : FaultCode) (info : Word) (s : State) :
    OnlyChanges Part.isLatch s (raiseAt cur code info s) := by
  intro p hp
  cases p with
  | halted | faultCode | faultPc | faultInfo => exact absurd (by simp [Part.isLatch]) hp
  | _ => exact rfl

theorem raiseAt_faulted (cur : Word) (code : FaultCode) (info : Word) (s : State) :
    Faulted code cur info (raiseAt cur code info s) :=
  ⟨rfl, rfl, rfl, rfl⟩

theorem tick_onlyChanges (s : State) : OnlyChanges (· ∈ [Part.dt, .st]) s (tick s) := by
  intro p hp
  cases p with
  | dt | st => exact absurd (by simp) hp
  | _ => exact rfl

theorem setPc_onlyChanges (s : State) (pc : Word) : OnlyChanges (· ∈ [Part.pc]) s { s with pc := pc } := by
  intro p hp
  cases p with
  | pc => exact absurd (by simp) hp
  | _ => exact rfl

/-! ## The steps that halt before any instruction executes -/

theorem step_of_fetchFault {s : State} (h : s.halted = false) (hp : 0x1000 ≤ s.pc.toNat + 1) :
    step s = .next (raiseAt s.pc .memRange (if 0x1000 ≤ s.pc.toNat then s.pc else s.pc + 1) s) := by
  simp only [step, h, Bool.false_eq_true, if_false, fetch_fault s hp]

/-- CUR, which the model does not store, is the PC from before the advance (10_state.md R24). -/
theorem curPc_tick_advance (s : State) : curPc (tick { s with pc := s.pc + 2 }) = s.pc :=
  BitVec.add_sub_cancel s.pc 2

theorem step_of_unknown {s : State} {high low : Byte} (h : s.halted = false) (hp : s.pc.toNat + 1 < 0x1000)
    (hd : decodedAtPc s = .unknown high low) :
    step s = .next (raiseAt s.pc .illegalInstruction (high ++ low) (tick { s with pc := s.pc + 2 })) := by
  simp only [step_fetched h hp, hd, execUnknown, raise_eq, curPc_tick_advance]

/-- Settles O7: the one next state is the old state with the latch raised, so the frame is that of `raiseAt`. -/
theorem fetchFaultLeavesPcAndTimers : Obligations.FetchFaultLeavesPcAndTimers := by
  intro s h hp
  exact ⟨_, step_of_fetchFault h hp, raiseAt_faulted _ _ _ s, raiseAt_onlyChanges _ _ _ s⟩

/-- Settles O8: the latch is raised on the state after the PC advance and the tick, and the frame is that of the three
updates composed. -/
theorem unknownWordFaults : Obligations.UnknownWordFaults := by
  intro s high low h hp hd
  refine ⟨_, step_of_unknown h hp hd, raiseAt_faulted .., rfl, countDown_toNat s.dt, countDown_toNat s.st, ?_⟩
  refine .trans ((setPc_onlyChanges s _).mono ?advance) (.trans ((tick_onlyChanges _).mono ?tick)
    ((raiseAt_onlyChanges _ _ _ _).mono ?latch))
  case advance => exact fun p hp => .inr (List.mem_singleton.mp hp ▸ List.mem_cons_self)
  case tick => exact fun p hp => .inr (List.mem_cons_of_mem _ hp)
  case latch => exact fun p hp => .inl hp

end Sys2Proof
end

section
/-!
PROOFS. Control transfer (spec/41_control_flow.md): RET, JP, CALL, SE and SNE. For each, the word the decoder reads it
from, the state it ends in, and the frame of that state, composed of the frames of the single updates.
-/
namespace Sys2Proof

open Sys2Proof.Machine

/-! ## The encodings -/

@[simp] theorem fieldReg_ofNat (x : Reg) : fieldReg (BitVec.ofNat 4 x.val) = x := by
  rw [← regField_eq, fieldReg_regField]

theorem decode_ret (x : Nibble) : decode (0x0#4 ++ x) 0xEE = .known .ret := by
  simp only [decode, highNibble_append]
  rfl

theorem decode_jp (addr : Addr12) :
    decode (0x1#4 ++ addr.extractLsb' 8 4) (addr.extractLsb' 0 8) = .known (.jp addr) := by
  simp only [decode, highNibble_append, lowNibble_append, addr_append]

theorem decode_call (addr : Addr12) :
    decode (0x2#4 ++ addr.extractLsb' 8 4) (addr.extractLsb' 0 8) = .known (.call addr) := by
  simp only [decode, highNibble_append, lowNibble_append, addr_append]

theorem decode_se (x : Reg) (kk : Byte) : decode (0x3#4 ++ BitVec.ofNat 4 x.val) kk = .known (.se x kk) := by
  simp only [decode, highNibble_append, lowNibble_append, fieldReg_ofNat]

theorem decode_sne (x : Reg) (kk : Byte) : decode (0x4#4 ++ BitVec.ofNat 4 x.val) kk = .known (.sne x kk) := by
  simp only [decode, highNibble_append, lowNibble_append, fieldReg_ofNat]

/-! ## The states they end in -/

theorem zextAddr_toNat (addr : Addr12) : (zextAddr addr).toNat = addr.toNat :=
  BitVec.toNat_setWidth_of_le (by decide)

theorem exec_ret_of_nonempty {s : State} {k : Fin 16} (h : s.sp.val = k.val + 1) :
    exec .ret s = .next { s with sp := k.castSucc, pc := s.stk[k] } := by
  have hpop : pop s = .ok (s.stk[k], { s with sp := k.castSucc }) := by
    rw [pop_ok s (by omega)]
    simp only [h, Nat.add_sub_cancel]
    rfl
  simp only [exec, execRet, hpop]

theorem exec_ret_of_empty {s : State} (h : s.sp.val = 0) :
    exec .ret s = .next (raiseAt (s.pc - 2) .stackUnderflow 0 s) := by
  simp only [exec, execRet, pop_fault s h, raise_eq, curPc]

theorem exec_call_of_room {addr : Addr12} {s : State} {k : Fin 16} (h : s.sp.val = k.val) :
    exec (.call addr) s = .next { s with stk := s.stk.set k s.pc, sp := k.succ, pc := zextAddr addr } := by
  have hpush : push s.pc s = .ok { s with stk := s.stk.set k s.pc, sp := k.succ } := by
    rw [push_ok s.pc s (by omega)]
    simp only [h]
    rfl
  simp only [exec, execCall, hpush]

theorem exec_call_of_full {addr : Addr12} {s : State} (h : s.sp.val = 16) :
    exec (.call addr) s = .next (raiseAt (s.pc - 2) .stackOverflow 0 s) := by
  simp only [exec, execCall, push_fault s.pc s h, raise_eq, curPc]

theorem exec_se (x : Reg) (kk : Byte) (s : State) :
    exec (.se x kk) s = .next { s with pc := if s.getV x = kk then s.pc + 2 else s.pc } := by
  by_cases h : s.getV x = kk
  · simp only [exec, execSe, if_pos h, skip]
  · simp only [exec, execSe, if_neg h]

theorem exec_sne (x : Reg) (kk : Byte) (s : State) :
    exec (.sne x kk) s = .next { s with pc := if s.getV x = kk then s.pc else s.pc + 2 } := by
  by_cases h : s.getV x = kk
  · simp only [exec, execSne, ne_eq, ite_not, if_pos h]
  · simp only [exec, execSne, ne_eq, ite_not, if_neg h, skip]

/-! ## The frames of the stack's updates -/

theorem setSp_onlyChanges (s : State) (sp : Fin 17) : OnlyChanges (· ∈ [Part.sp]) s { s with sp := sp } := by
  intro p hp
  cases p with
  | sp => exact absurd (by simp) hp
  | _ => exact rfl

theorem setStk_onlyChanges (s : State) (k : Fin 16) (v : Word) :
    OnlyChanges (· ∈ [Part.stk k]) s { s with stk := s.stk.set k v } := by
  intro p hp
  cases p with
  | stk j =>
    have hne : k.val ≠ j.val := fun h => hp (by simp [Fin.ext h])
    exact Vector.getElem_set_ne k.isLt j.isLt hne
  | _ => exact rfl

/-! ## The obligations -/

/-- Settles O13: the end state of each branch; where RET pops, its frame is that of SP and then PC written. -/
theorem retPopsPc : Obligations.RetPopsPc := by
  refine ⟨decode_ret, fun s k h => ⟨_, exec_ret_of_nonempty h, rfl, rfl, ?_⟩,
    fun s h => ⟨_, exec_ret_of_empty h, raiseAt_faulted .., raiseAt_onlyChanges _ _ _ s⟩⟩
  exact .trans ((setSp_onlyChanges s k.castSucc).mono (by simp)) ((setPc_onlyChanges _ _).mono (by simp))

/-- Settles O14: JP writes PC alone. -/
theorem jpSetsPc : Obligations.JpSetsPc :=
  ⟨decode_jp, fun addr s => ⟨_, rfl, zextAddr_toNat addr, setPc_onlyChanges s _⟩⟩

/-- Settles O15: the end state of each branch; where CALL pushes, its frame is that of the stack entry, SP and PC
written one after another. -/
theorem callPushesPc : Obligations.CallPushesPc := by
  refine ⟨decode_call,
    fun addr s k h => ⟨_, exec_call_of_room h, Vector.getElem_set_self k.isLt, rfl, zextAddr_toNat addr, ?_⟩,
    fun addr s h => ⟨_, exec_call_of_full h, raiseAt_faulted .., raiseAt_onlyChanges _ _ _ s⟩⟩
  exact .trans ((setStk_onlyChanges s k s.pc).mono (by simp))
    (.trans ((setSp_onlyChanges _ _).mono (by simp)) ((setPc_onlyChanges _ _).mono (by simp)))

/-- Settles O16: SE writes PC alone, with the value of the branch taken. -/
theorem seSkipsWhenEqual : Obligations.SeSkipsWhenEqual :=
  fun x kk => ⟨decode_se x kk, fun s => ⟨_, exec_se x kk s, rfl, setPc_onlyChanges s _⟩⟩

/-- Settles O17: SNE writes PC alone, with the value of the branch taken. -/
theorem sneSkipsWhenNotEqual : Obligations.SneSkipsWhenNotEqual :=
  fun x kk => ⟨decode_sne x kk, fun s => ⟨_, exec_sne x kk s, rfl, setPc_onlyChanges s _⟩⟩

end Sys2Proof
end

section
/-!
PROOFS. ALU and register instructions (spec/42_alu.md): LD, ADD, LDR, AND, XOR, ADDC and SUB. For each, the word the
decoder reads it from and the state it ends in; all they change is registers, so their frames come from that of `setV`.
-/
namespace Sys2Proof

open Sys2Proof.Machine

/-! ## The encodings -/

theorem decode_ld (x : Reg) (kk : Byte) : decode (0x6#4 ++ BitVec.ofNat 4 x.val) kk = .known (.ld x kk) := by
  simp only [decode, highNibble_append, lowNibble_append, fieldReg_ofNat]

theorem decode_add (x : Reg) (kk : Byte) : decode (0x7#4 ++ BitVec.ofNat 4 x.val) kk = .known (.add x kk) := by
  simp only [decode, highNibble_append, lowNibble_append, fieldReg_ofNat]

theorem decode_ldr (x y : Reg) :
    decode (0x8#4 ++ BitVec.ofNat 4 x.val) (BitVec.ofNat 4 y.val ++ 0x0#4) = .known (.ldr x y) := by
  simp only [decode, highNibble_append, lowNibble_append, fieldReg_ofNat]

theorem decode_and (x y : Reg) :
    decode (0x8#4 ++ BitVec.ofNat 4 x.val) (BitVec.ofNat 4 y.val ++ 0x2#4) = .known (.and x y) := by
  simp only [decode, highNibble_append, lowNibble_append, fieldReg_ofNat]

theorem decode_xor (x y : Reg) :
    decode (0x8#4 ++ BitVec.ofNat 4 x.val) (BitVec.ofNat 4 y.val ++ 0x3#4) = .known (.xor x y) := by
  simp only [decode, highNibble_append, lowNibble_append, fieldReg_ofNat]

theorem decode_addc (x y : Reg) :
    decode (0x8#4 ++ BitVec.ofNat 4 x.val) (BitVec.ofNat 4 y.val ++ 0x4#4) = .known (.addc x y) := by
  simp only [decode, highNibble_append, lowNibble_append, fieldReg_ofNat]

theorem decode_sub (x y : Reg) :
    decode (0x8#4 ++ BitVec.ofNat 4 x.val) (BitVec.ofNat 4 y.val ++ 0x5#4) = .known (.sub x y) := by
  simp only [decode, highNibble_append, lowNibble_append, fieldReg_ofNat]

/-! ## The states they end in -/

theorem exec_ld (x : Reg) (kk : Byte) (s : State) : exec (.ld x kk) s = .next (s.setV x kk) := rfl

theorem exec_add (x : Reg) (kk : Byte) (s : State) : exec (.add x kk) s = .next (s.setV x (s.getV x + kk)) := rfl

theorem exec_ldr (x y : Reg) (s : State) : exec (.ldr x y) s = .next (s.setV x (s.getV y)) := rfl

theorem exec_and (x y : Reg) (s : State) : exec (.and x y) s = .next (s.setV x (s.getV x &&& s.getV y)) := rfl

theorem exec_xor (x y : Reg) (s : State) : exec (.xor x y) s = .next (s.setV x (s.getV x ^^^ s.getV y)) := rfl

theorem exec_addc_of_overflow {x y : Reg} {s : State} (h : 256 ≤ (s.getV x).toNat + (s.getV y).toNat) :
    exec (.addc x y) s = .next (s.setV 15 1) := by
  have hov : addOverflows (s.getV x) (s.getV y) = true := decide_eq_true h
  simp only [exec, execAddc, if_pos hov]

theorem exec_addc_of_fits {x y : Reg} {s : State} (h : (s.getV x).toNat + (s.getV y).toNat < 256) :
    exec (.addc x y) s = .next (s.setV x (s.getV x + s.getV y)) := by
  have hov : ¬ addOverflows (s.getV x) (s.getV y) = true := fun hc => Nat.not_le.mpr h (of_decide_eq_true hc)
  simp only [exec, execAddc, if_neg hov]

theorem exec_sub_of_gt {x y : Reg} {s : State} (h : (s.getV y).toNat < (s.getV x).toNat) :
    exec (.sub x y) s = .next ((s.setV 15 1).setV x (s.getV x - s.getV y)) := by
  have hact : subActs (s.getV x) (s.getV y) = true := decide_eq_true h
  simp only [exec, execSub, if_pos hact]

theorem exec_sub_of_le {x y : Reg} {s : State} (h : (s.getV x).toNat ≤ (s.getV y).toNat) :
    exec (.sub x y) s = .next s := by
  have hact : ¬ subActs (s.getV x) (s.getV y) = true := fun hc => Nat.not_lt.mpr h (of_decide_eq_true hc)
  simp only [exec, execSub, if_neg hact]

/-! ## The frame of a register write -/

theorem setV_onlyChanges (s : State) (x : Reg) (b : Byte) : OnlyChanges (· ∈ [Part.reg x]) s (s.setV x b) := by
  intro p hp
  cases p with
  | reg r => exact getV_setV_ne s x r b fun h => hp (by simp [h])
  | _ => exact rfl

/-! ## The obligations -/

/-- Settles O19: LD is one register write. -/
theorem ldLoadsImmediate : Obligations.LdLoadsImmediate :=
  fun x kk => ⟨decode_ld x kk, fun s => ⟨_, exec_ld x kk s, getV_setV_self s x kk, setV_onlyChanges s x kk⟩⟩

/-- Settles O20: ADD is one register write, of a sum of bytes, which is taken modulo 256. -/
theorem addWraps : Obligations.AddWraps := by
  refine fun x kk => ⟨decode_add x kk, fun s => ⟨_, exec_add x kk s, ?_, setV_onlyChanges s x _⟩⟩
  rw [getV_setV_self, BitVec.toNat_add]

/-- Settles O21: LDR is one register write. -/
theorem ldrCopiesRegister : Obligations.LdrCopiesRegister :=
  fun x y => ⟨decode_ldr x y, fun s => ⟨_, exec_ldr x y s, getV_setV_self s x _, setV_onlyChanges s x _⟩⟩

/-- Settles O22: AND is one register write. -/
theorem andIsBitwise : Obligations.AndIsBitwise := by
  refine fun x y => ⟨decode_and x y, fun s => ⟨_, exec_and x y s, fun b => ?_, setV_onlyChanges s x _⟩⟩
  rw [getV_setV_self, BitVec.getLsbD_and]

/-- Settles O23: XOR is one register write. -/
theorem xorIsBitwise : Obligations.XorIsBitwise := by
  refine fun x y => ⟨decode_xor x y, fun s => ⟨_, exec_xor x y s, fun b => ?_, setV_onlyChanges s x _⟩⟩
  rw [getV_setV_self, BitVec.getLsbD_xor]

/-- Settles O24: ADDC is one register write on either branch, of VF or of Vx; a sum that fits a byte does not wrap. -/
theorem addcDiscardsOnOverflow : Obligations.AddcDiscardsOnOverflow := by
  refine fun x y => ⟨decode_addc x y,
    fun s h => ⟨_, exec_addc_of_overflow h, getV_setV_self s 15 1, setV_onlyChanges s 15 1⟩,
    fun s h => ⟨_, exec_addc_of_fits h, ?_, setV_onlyChanges s x _⟩⟩
  rw [getV_setV_self, BitVec.toNat_add_of_lt h]

/-- Settles O25: where SUB acts, it writes VF and then Vx, so VF keeps the 1 unless x = F, and the difference does not
wrap; where it does not act, the state is the old one. -/
theorem subActsOnlyWithoutBorrow : Obligations.SubActsOnlyWithoutBorrow := by
  refine fun x y => ⟨decode_sub x y, fun s h => ⟨_, exec_sub_of_gt h, ?difference, fun hx => ?flag, ?frame⟩,
    fun s h => exec_sub_of_le h⟩
  case difference => rw [getV_setV_self, BitVec.toNat_sub_of_le (BitVec.le_def.mpr h.le)]
  case flag => rw [getV_setV_ne _ _ _ _ hx.symm, getV_setV_self]
  case frame =>
    exact .trans ((setV_onlyChanges s 15 1).mono (by simp)) ((setV_onlyChanges _ x _).mono (by simp))

end Sys2Proof
end

section
/-!
PROOFS. The index register and the memory instructions (spec/43_index_memory.md): LDI, ADDI, LDF, LDB, LDRM and LDV. LDB
and LDRM are one operation, a run of bytes stored from I up, so what it stores, where it faults and what it leaves alone
is proved once, for every list of bytes; LDV is the same argument for registers.
-/
namespace Sys2Proof

open Sys2Proof.Machine

/-! ## The encodings -/

theorem decode_ldi (addr : Addr12) :
    decode (0xA#4 ++ addr.extractLsb' 8 4) (addr.extractLsb' 0 8) = .known (.ldi addr) := by
  simp only [decode, highNibble_append, lowNibble_append, addr_append]

theorem decode_addi (x : Reg) : decode (0xF#4 ++ BitVec.ofNat 4 x.val) 0x1E = .known (.addi x) := by
  simp only [decode, highNibble_append, lowNibble_append, fieldReg_ofNat]
  rfl

theorem decode_ldf (x : Reg) : decode (0xF#4 ++ BitVec.ofNat 4 x.val) 0x29 = .known (.ldf x) := by
  simp only [decode, highNibble_append, lowNibble_append, fieldReg_ofNat]
  rfl

theorem decode_ldb (x : Reg) : decode (0xF#4 ++ BitVec.ofNat 4 x.val) 0x33 = .known (.ldb x) := by
  simp only [decode, highNibble_append, lowNibble_append, fieldReg_ofNat]
  rfl

theorem decode_ldrm (x : Reg) : decode (0xF#4 ++ BitVec.ofNat 4 x.val) 0x55 = .known (.ldrm x) := by
  simp only [decode, highNibble_append, lowNibble_append, fieldReg_ofNat]
  rfl

theorem decode_ldv (x : Reg) : decode (0xF#4 ++ BitVec.ofNat 4 x.val) 0x65 = .known (.ldv x) := by
  simp only [decode, highNibble_append, lowNibble_append, fieldReg_ofNat]
  rfl

/-! ## The index register -/

theorem setI_onlyChanges (s : State) (i : Word) : OnlyChanges (· ∈ [Part.i]) s { s with i := i } := by
  intro p hp
  cases p with
  | i => exact absurd (by simp) hp
  | _ => exact rfl

/-- Settles O28: LDI writes I alone. -/
theorem ldiLoadsIndex : Obligations.LdiLoadsIndex :=
  ⟨decode_ldi, fun addr s => ⟨_, rfl, zextAddr_toNat addr, setI_onlyChanges s _⟩⟩

/-- Settles O29: ADDI writes I alone, with a sum of words, which is taken modulo 65536. -/
theorem addiWrapsIndex : Obligations.AddiWrapsIndex := by
  refine fun x => ⟨decode_addi x, fun s => ⟨_, rfl, ?_, setI_onlyChanges s _⟩⟩
  show (s.i + (s.getV x).setWidth 16).toNat = _
  rw [BitVec.toNat_add, BitVec.toNat_setWidth_of_le (by decide)]

/-- Settles O30: LDF writes I alone; five times a byte fits a word, so the product does not wrap. -/
theorem ldfPointsAtGlyph : Obligations.LdfPointsAtGlyph := by
  refine fun x => ⟨decode_ldf x, fun s => ⟨_, rfl, ?_, setI_onlyChanges s _⟩⟩
  show ((s.getV x).setWidth 16 * 5).toNat = _
  have hbyte := (s.getV x).isLt
  rw [BitVec.toNat_mul, BitVec.toNat_setWidth_of_le (by decide)]
  exact Nat.mod_eq_of_lt (by show _ * 5 < 65536; omega)

/-! ## A run of bytes stored from I up -/

theorem loadBytes_onlyChanges (bs : List Byte) (a : Nat) (s : State) :
    OnlyChanges (fun p => ∃ k < bs.length, p = .mem (a + k)) s { s with mem := loadBytes a bs s.mem } := by
  intro p hp
  cases p with
  | mem c => exact Memory.read_loadBytes_out bs a s.mem c fun k hk hc => hp ⟨k, hk, hc ▸ rfl⟩
  | _ => exact rfl

/-- Every address exists: every byte is stored at its place. -/
theorem storeBytes_of_room {bs : List Byte} {s : State} (h : bs = [] ∨ s.i.toNat + bs.length ≤ 0x1000) :
    ∃ t, finish (storeBytes (dataAddr s 0) bs s) = .next t ∧
      (∀ k (hk : k < bs.length), Memory.read t.mem (s.i.toNat + k) = bs[k]) ∧
      OnlyChanges (fun p => ∃ k < bs.length, p = .mem (s.i.toNat + k)) s t := by
  refine ⟨_, congrArg finish (storeBytes_ok bs s.i.toNat s h), fun k hk => ?_, loadBytes_onlyChanges _ _ s⟩
  exact Memory.read_loadBytes_in bs s.i.toNat s.mem k hk

/-- Some address does not exist: the bytes before the first such address are stored, and the fault names it. -/
theorem storeBytes_of_overrun {bs : List Byte} {s : State} (hne : bs ≠ []) (h : 0x1000 < s.i.toNat + bs.length) :
    ∃ t, finish (storeBytes (dataAddr s 0) bs s) = .next t ∧
      Faulted .memRange (s.pc - 2) (firstOutOfRange s.i) t ∧
      (∀ k (hk : k < bs.length), s.i.toNat + k < 0x1000 → Memory.read t.mem (s.i.toNat + k) = bs[k]) ∧
      OnlyChanges (fun p => p.isLatch ∨ ∃ k < bs.length, s.i.toNat + k < 0x1000 ∧ p = .mem (s.i.toNat + k)) s t := by
  refine ⟨_, congrArg finish (storeBytes_fault bs s.i.toNat s hne h), ?latch, fun k hk hin => ?stored, ?frame⟩
  case latch => exact ⟨rfl, rfl, rfl, ofNat_max s.i⟩
  case stored =>
    have hk' : k < (bs.take (0x1000 - s.i.toNat)).length := by rw [List.length_take]; omega
    exact (Memory.read_loadBytes_in _ s.i.toNat s.mem k hk').trans List.getElem_take
  case frame =>
    refine .trans ((loadBytes_onlyChanges _ _ s).mono ?_) ((raiseAt_onlyChanges _ _ _ _).mono fun p => .inl)
    rintro p ⟨k, hk, rfl⟩
    rw [List.length_take] at hk
    exact .inr ⟨k, by omega, by omega, rfl⟩

/-! ## LDB -/

/-- The digit stored at I + k counts the power of ten 10 ^ (2 - k). -/
theorem decimalDigits_getElem (v : Byte) (k : Nat) (hk : k < (decimalDigits v).length) :
    (decimalDigits v)[k].toNat = v.toNat / 10 ^ (2 - k) % 10 := by
  have hv := v.isLt
  match k, hk with
  | 0, _ => show v.toNat / 100 % 256 = v.toNat / 100 % 10; omega
  | 1, _ => show v.toNat / 10 % 10 % 256 = v.toNat / 10 % 10; omega
  | 2, _ => show v.toNat % 10 % 256 = v.toNat / 1 % 10; omega

/-- Settles O31: LDB stores the three digits; the hundreds of a byte are a digit as they stand. -/
theorem ldbStoresDecimalDigits : Obligations.LdbStoresDecimalDigits := by
  refine fun x => ⟨decode_ldb x, fun s h => ?room, fun s h => ?overrun⟩
  case room =>
    obtain ⟨t, ht, hread, hframe⟩ := storeBytes_of_room (bs := decimalDigits (s.getV x)) (s := s) (.inr h)
    have hdigit (k : Nat) (hk : k < 3) :
        (Memory.read t.mem (s.i.toNat + k)).toNat = (s.getV x).toNat / 10 ^ (2 - k) % 10 :=
      (congrArg BitVec.toNat (hread k hk)).trans (decimalDigits_getElem _ k hk)
    refine ⟨t, ht, ?_, hdigit 1 (by decide), ?_, hframe.mono ?_⟩
    · have hv := (s.getV x).isLt
      exact (hdigit 0 (by decide)).trans (Nat.mod_eq_of_lt (by show _ / 100 < 10; omega))
    · exact (hdigit 2 (by decide)).trans (by rw [Nat.pow_zero, Nat.div_one])
    · rintro p ⟨k, hk, rfl⟩
      match k, hk with
      | 0, _ | 1, _ | 2, _ => simp
  case overrun =>
    obtain ⟨t, ht, hlatch, hread, hframe⟩ := storeBytes_of_overrun (bs := decimalDigits (s.getV x)) (s := s)
      (List.cons_ne_nil _ _) (Nat.lt_succ_of_le h)
    exact ⟨t, ht, hlatch,
      fun k hk hin => (congrArg BitVec.toNat (hread k hk hin)).trans (decimalDigits_getElem _ k hk), hframe⟩

/-! ## LDRM: V0..V(x-1) and their values, place by place -/

theorem bulkRegs_length (x : Reg) : (bulkRegs x).length = x.val := by
  obtain ⟨-, hlen, -⟩ := bulkRegs_spec x
  exact hlen

theorem mem_bulkRegs (x r : Reg) : r ∈ bulkRegs x ↔ r < x := by
  obtain ⟨-, -, hreg⟩ := bulkRegs_spec x
  exact (hreg r).1

theorem bulkRegs_eq_nil (x : Reg) : bulkRegs x = [] ↔ x = 0 := by
  rw [← List.length_eq_zero_iff, bulkRegs_length, Fin.val_eq_zero_iff]

/-- The register at place `k` of V0..V(x-1) is Vk. -/
theorem bulkRegs_getElem {x k : Reg} (h : k < x) :
    (bulkRegs x)[k.val]'(by rw [bulkRegs_length]; exact h) = k := by
  obtain ⟨-, -, hreg⟩ := bulkRegs_spec x
  obtain ⟨-, hplace⟩ := (hreg k).2 h
  exact (List.getElem_eq_iff _).mpr hplace

theorem bulkValues_length (x : Reg) (s : State) : ((bulkRegs x).map s.getV).length = x.val := by
  rw [List.length_map, bulkRegs_length]

theorem bulkValues_eq_nil (x : Reg) (s : State) : (bulkRegs x).map s.getV = [] ↔ x = 0 := by
  rw [List.map_eq_nil_iff, bulkRegs_eq_nil]

theorem bulkValues_getElem {x k : Reg} (h : k < x) (s : State) :
    ((bulkRegs x).map s.getV)[k.val]'(by rw [bulkValues_length]; exact h) = s.getV k := by
  rw [List.getElem_map, bulkRegs_getElem h]

/-- Settles O32: LDRM stores the values of V0..V(x-1), so byte k of the run is Vk. -/
theorem ldrmStoresRegisters : Obligations.LdrmStoresRegisters := by
  refine fun x => ⟨decode_ldrm x, fun s h => ?room, fun s hx h => ?overrun⟩
  case room =>
    obtain ⟨t, ht, hread, hframe⟩ := storeBytes_of_room (bs := (bulkRegs x).map s.getV) (s := s)
      (by rwa [bulkValues_eq_nil, bulkValues_length])
    refine ⟨t, ht, fun k hk => (hread k (by rw [bulkValues_length]; exact hk)).trans (bulkValues_getElem hk s),
      hframe.mono ?_⟩
    rintro p ⟨k, hk, rfl⟩
    rw [bulkValues_length] at hk
    exact ⟨⟨k, by omega⟩, hk, rfl⟩
  case overrun =>
    obtain ⟨t, ht, hlatch, hread, hframe⟩ := storeBytes_of_overrun (bs := (bulkRegs x).map s.getV) (s := s)
      (by rwa [ne_eq, bulkValues_eq_nil]) (by rwa [bulkValues_length])
    refine ⟨t, ht, hlatch,
      fun k hk hin => (hread k (by rw [bulkValues_length]; exact hk) hin).trans (bulkValues_getElem hk s),
      hframe.mono fun p => Or.imp_right ?_⟩
    rintro ⟨k, hk, hin, rfl⟩
    rw [bulkValues_length] at hk
    exact ⟨⟨k, by omega⟩, hk, hin, rfl⟩

/-! ## LDV -/

theorem fillRegs_onlyChanges (rs : List Reg) (a : Nat) (s : State) :
    OnlyChanges (fun p => ∃ r ∈ rs, p = .reg r) s (fillRegs a rs s) := by
  induction rs generalizing a s with
  | nil => exact fun p _ => by cases p <;> exact rfl
  | cons r rs ih =>
    refine .trans ((setV_onlyChanges s r (Memory.read s.mem a)).mono fun p hp => ?_) ((ih (a + 1) _).mono ?_)
    · exact ⟨r, List.mem_cons_self, List.mem_singleton.mp hp⟩
    · exact fun p ⟨q, hq, hpq⟩ => ⟨q, List.mem_cons_of_mem r hq, hpq⟩

theorem exec_ldv_of_room {x : Reg} {s : State} (h : x = 0 ∨ s.i.toNat + x.val ≤ 0x1000) :
    exec (.ldv x) s = .next (fillRegs s.i.toNat (bulkRegs x) s) := by
  rw [← bulkRegs_eq_nil, ← bulkRegs_length] at h
  exact congrArg finish (loadRegs_ok (bulkRegs x) s.i.toNat s h)

/-- How many of V0..V(x-1) a run from `i` up loads before it leaves the memory. -/
def loadable (i : Word) (x : Reg) : Reg := ⟨min (0x1000 - i.toNat) x.val, by omega⟩

theorem lt_loadable (i : Word) (x k : Reg) : k < loadable i x ↔ k < x ∧ i.toNat + k.val < 0x1000 := by
  simp only [loadable, Fin.lt_def]
  omega

theorem exec_ldv_of_overrun {x : Reg} {s : State} (hx : x ≠ 0) (h : 0x1000 < s.i.toNat + x.val) :
    exec (.ldv x) s = .next (raiseAt (s.pc - 2) .memRange (firstOutOfRange s.i)
      (fillRegs s.i.toNat (bulkRegs (loadable s.i x)) s)) := by
  have hload := loadRegs_fault (bulkRegs x) s.i.toNat s (by rwa [ne_eq, bulkRegs_eq_nil]) (by rwa [bulkRegs_length])
  have hpc : (fillRegs s.i.toNat (bulkRegs (loadable s.i x)) s).pc = s.pc :=
    fillRegs_onlyChanges _ _ s .pc (by simp)
  rw [bulkRegs_take, ofNat_max, raise_eq] at hload
  refine (congrArg finish hload).trans ?_
  rw [finish_error, ← loadable, curPc, hpc, firstOutOfRange]

/-- Settles O33: LDV loads V0..V(x-1), or on a fault the part of them whose bytes exist, which is such a range too. -/
theorem ldvLoadsRegisters : Obligations.LdvLoadsRegisters := by
  refine fun x => ⟨decode_ldv x, fun s h => ⟨_, exec_ldv_of_room h, fun k hk => ?_, ?_⟩,
    fun s hx h => ⟨_, exec_ldv_of_overrun hx h, raiseAt_faulted .., fun k hk hin => ?_, ?_⟩⟩
  · rw [getV_fillRegs_bulk, if_pos hk]
  · exact (fillRegs_onlyChanges _ _ s).mono fun p ⟨k, hk, hp⟩ => ⟨k, (mem_bulkRegs x k).mp hk, hp⟩
  · rw [raiseAt_getV, getV_fillRegs_bulk, if_pos ((lt_loadable s.i x k).mpr ⟨hk, hin⟩)]
  · refine .trans ((fillRegs_onlyChanges _ _ s).mono ?_) ((raiseAt_onlyChanges _ _ _ _).mono fun p => .inl)
    rintro p ⟨k, hk, hp⟩
    obtain ⟨hkx, hin⟩ := (lt_loadable s.i x k).mp ((mem_bulkRegs _ k).mp hk)
    exact .inr ⟨k, hkx, hin, hp⟩

end Sys2Proof
end

section
/-!
PROOFS. The display instructions (spec/44_display.md): CLS and DRW. What `paintRows`, the pure loop behind DRW, does to
each pixel and to VF is said in the terms of the statement, `RowsDrawn` and `drawnParts`, once for any number of rows;
a DRW that completes draws n rows, one that faults draws the rows whose addresses exist.
-/
namespace Sys2Proof

open Sys2Proof.Machine

/-! ## The encodings -/

theorem decode_cls (x : Nibble) : decode (0x0#4 ++ x) 0xE0 = .known .cls := by
  simp only [decode, highNibble_append]
  rfl

theorem decode_drw (x y : Reg) (n : Fin 16) :
    decode (0xD#4 ++ BitVec.ofNat 4 x.val) (BitVec.ofNat 4 y.val ++ BitVec.ofNat 4 n.val) = .known (.drw x y n) := by
  simp only [decode, highNibble_append, lowNibble_append, fieldReg_ofNat]

/-! ## CLS -/

theorem setFb_onlyChanges (s : State) (fb : Vector (Vector Bool 32) 64) :
    OnlyChanges (fun p => ∃ c r, p = .pixel c r) s { s with fb := fb } := by
  intro p hp
  cases p with
  | pixel c r => exact absurd ⟨c, r, rfl⟩ hp
  | _ => exact rfl

theorem pixel_blankFb (s : State) (c : Fin 64) (r : Fin 32) :
    { s with fb := Vector.replicate 64 (Vector.replicate 32 false) }.pixel c r = false := by
  simp [State.pixel]

/-- Settles O34: CLS writes the framebuffer alone, with one that is dark everywhere. -/
theorem clsClearsFramebuffer : Obligations.ClsClearsFramebuffer :=
  ⟨decode_cls, fun s => ⟨_, rfl, pixel_blankFb s, setFb_onlyChanges s _⟩⟩

/-! ## The rows of a sprite -/

/-- Each framebuffer pixel has one offset from the sprite's corner, so it belongs to at most one sprite bit. -/
theorem isSpritePixel_iff {cx cy : Byte} {dc dr : Nat} (hdc : dc < 64) (hdr : dr < 32) (c : Fin 64) (r : Fin 32) :
    isSpritePixel cx cy dc dr c r ↔ colOffset cx c = dc ∧ rowOffset cy r = dr := by
  rw [← pixelCol_eq_iff cx c dc hdc, ← pixelRow_eq_iff cy r dr hdr, Fin.ext_iff, Fin.ext_iff]
  rfl

theorem paintRows_rowsDrawn (cx cy : Byte) {m : Nat} (hm : m ≤ 32) (s : State) :
    RowsDrawn cx cy m s (paintRows cx cy 0 m s) := by
  refine ⟨fun dr hdr dc hdc c r hp => ?pixels, fun last hlast c r hp => ?flag⟩
  case pixels =>
    obtain ⟨rfl, rfl⟩ := (isSpritePixel_iff (by omega) (by omega) c r).mp hp
    have hin : 0 ≤ rowOffset cy r ∧ rowOffset cy r < 0 + m ∧ colOffset cx c < 8 := by omega
    rw [paintRows_pixel cx cy m 0 s (by omega), decide_eq_true hin, Bool.true_and, spriteBit]
  case flag =>
    subst hlast
    obtain ⟨hc, hr⟩ := hp
    rw [paintRows_flag cx cy last 0 s (by omega), Nat.zero_add, collisionFlag,
      show c = pixelCol cx 7 from Fin.ext hc, show r = pixelRow cy last from Fin.ext hr]

theorem paintRows_onlyChanges (cx cy : Byte) {m : Nat} (hm : m ≤ 32) (s : State) :
    OnlyChanges (drawnParts cx cy m) s (paintRows cx cy 0 m s) := by
  obtain ⟨v, fb, hpaint, hv⟩ := paintRows_eq cx cy m 0 s
  intro p hp
  cases p with
  | reg r =>
    cases m with
    | zero => exact rfl
    | succ m =>
      rw [hpaint]
      exact hv r fun h => hp (.inl ⟨m.succ_pos, congrArg Part.reg h⟩)
  | pixel c r =>
    have hout : ¬ (0 ≤ rowOffset cy r ∧ rowOffset cy r < 0 + m ∧ colOffset cx c < 8) := fun ⟨_, hr, hc⟩ =>
      hp (.inr ⟨rowOffset cy r, by omega, colOffset cx c, hc, c, r,
        (isSpritePixel_iff (by omega) (by omega) c r).mpr ⟨rfl, rfl⟩, rfl⟩)
    show (paintRows cx cy 0 m s).pixel c r = s.pixel c r
    rw [paintRows_pixel cx cy m 0 s (by omega), decide_eq_false hout, Bool.false_and, Bool.xor_false]
  | _ => rw [hpaint]; exact rfl

/-! ## DRW -/

theorem exec_drw_of_room {x y : Reg} {n : Fin 16} {s : State} (h : n = 0 ∨ s.i.toNat + n.val ≤ 0x1000) :
    exec (.drw x y n) s = .next (paintRows (s.getV x) (s.getV y) 0 n.val s) :=
  congrArg finish (drawRows_ok _ _ n.val 0 s (h.imp_left (congrArg Fin.val)))

theorem exec_drw_of_overrun {x y : Reg} {n : Fin 16} {s : State} (hn : n ≠ 0) (h : 0x1000 < s.i.toNat + n.val) :
    exec (.drw x y n) s = .next (raiseAt (s.pc - 2) .memRange (firstOutOfRange s.i)
      (paintRows (s.getV x) (s.getV y) 0 (0x1000 - s.i.toNat) s)) := by
  have hdraw := drawRows_fault (s.getV x) (s.getV y) n.val 0 s (Fin.val_ne_zero_iff.mpr hn) h
  obtain ⟨v, fb, hpaint, -⟩ := paintRows_eq (s.getV x) (s.getV y) (0x1000 - s.i.toNat) 0 s
  rw [Nat.add_zero, ofNat_max, raise_eq, hpaint] at hdraw
  rw [hpaint]
  exact congrArg finish hdraw

/-- Settles O35: the loop draws all n rows, or on a fault the rows whose addresses exist, fewer than n; raising the
latch after them leaves the pixels and VF. -/
theorem drwComposesSprite : Obligations.DrwComposesSprite := by
  refine fun x y n => ⟨decode_drw x y n, fun s h => ?room, fun s hn h => ?overrun⟩
  case room =>
    have hm : n.val ≤ 32 := by omega
    exact ⟨_, exec_drw_of_room h, paintRows_rowsDrawn _ _ hm s, paintRows_onlyChanges _ _ hm s⟩
  case overrun =>
    have hm : 0x1000 - s.i.toNat ≤ 32 := by omega
    refine ⟨_, exec_drw_of_overrun hn h, raiseAt_faulted .., paintRows_rowsDrawn _ _ hm s, ?_⟩
    exact .trans ((paintRows_onlyChanges _ _ hm s).mono fun p => .inr)
      ((raiseAt_onlyChanges _ _ _ _).mono fun p => .inl)

end Sys2Proof
end

section
/-!
PROOFS. The timer instructions (spec/45_timers.md): DTLD, LDDT and LDST. Each writes one piece of the state; around them
stands what a whole step does to the timers: it ticks both, and then only LDDT writes DT and only LDST writes ST.
-/
namespace Sys2Proof

open Sys2Proof.Machine

/-! ## The encodings -/

theorem decode_dtld (x : Reg) : decode (0xF#4 ++ BitVec.ofNat 4 x.val) 0x07 = .known (.dtld x) := by
  simp only [decode, highNibble_append, lowNibble_append, fieldReg_ofNat]
  rfl

theorem decode_lddt (x : Reg) : decode (0xF#4 ++ BitVec.ofNat 4 x.val) 0x15 = .known (.lddt x) := by
  simp only [decode, highNibble_append, lowNibble_append, fieldReg_ofNat]
  rfl

theorem decode_ldst (x : Reg) : decode (0xF#4 ++ BitVec.ofNat 4 x.val) 0x18 = .known (.ldst x) := by
  simp only [decode, highNibble_append, lowNibble_append, fieldReg_ofNat]
  rfl

/-! ## The states they end in, and their frames -/

theorem exec_dtld (x : Reg) (s : State) : exec (.dtld x) s = .next (s.setV x s.dt) := rfl

theorem exec_lddt (x : Reg) (s : State) : exec (.lddt x) s = .next { s with dt := s.getV x } := rfl

theorem exec_ldst (x : Reg) (s : State) : exec (.ldst x) s = .next { s with st := s.getV x } := rfl

theorem setDt_onlyChanges (s : State) (b : Byte) : OnlyChanges (· ∈ [Part.dt]) s { s with dt := b } := by
  intro p hp
  cases p with
  | dt => exact absurd (by simp) hp
  | _ => exact rfl

theorem setSt_onlyChanges (s : State) (b : Byte) : OnlyChanges (· ∈ [Part.st]) s { s with st := b } := by
  intro p hp
  cases p with
  | st => exact absurd (by simp) hp
  | _ => exact rfl

theorem portSound_iff (s : State) : portSound s = true ↔ s.st ≠ 0 := decide_eq_true_iff

/-- Settles O37: DTLD is one register write. -/
theorem dtldReadsDelayTimer : Obligations.DtldReadsDelayTimer :=
  fun x => ⟨decode_dtld x, fun s => ⟨_, exec_dtld x s, getV_setV_self s x s.dt, setV_onlyChanges s x s.dt⟩⟩

/-- Settles O38: LDDT writes DT alone. -/
theorem lddtSetsDelayTimer : Obligations.LddtSetsDelayTimer :=
  fun x => ⟨decode_lddt x, fun s => ⟨_, exec_lddt x s, rfl, setDt_onlyChanges s _⟩⟩

/-- Settles O39: LDST writes ST alone, and the sound output is read off the ST it leaves. -/
theorem ldstSetsSoundTimer : Obligations.LdstSetsSoundTimer :=
  fun x => ⟨decode_ldst x, fun s => ⟨_, exec_ldst x s, rfl, portSound_iff _, setSt_onlyChanges s _⟩⟩

/-! ## The timers in a whole step -/

/-- Execute writes DT in LDDT only and ST in LDST only (10_state.md R18). -/
theorem exec_timers {i : Instr} {s t : State} (h : exec i s = .next t) :
    ((∀ x, i ≠ .lddt x) → t.dt = s.dt) ∧ ((∀ x, i ≠ .ldst x) → t.st = s.st) := by
  cases i with
  | lddt x => cases h; exact ⟨fun hne => absurd rfl (hne x), fun _ => rfl⟩
  | ldst x => cases h; exact ⟨fun _ => rfl, fun hne => absurd rfl (hne x)⟩
  | ret => obtain ⟨_, _, rfl⟩ | ⟨_, rfl⟩ := execRet_cases h <;> exact ⟨fun _ => rfl, fun _ => rfl⟩
  | call addr => obtain ⟨_, rfl⟩ | ⟨_, rfl⟩ := execCall_cases h <;> exact ⟨fun _ => rfl, fun _ => rfl⟩
  | se x kk => rw [exec_se] at h; cases h; exact ⟨fun _ => rfl, fun _ => rfl⟩
  | sne x kk => rw [exec_sne] at h; cases h; exact ⟨fun _ => rfl, fun _ => rfl⟩
  | addc x y | sub x y => cases h; split <;> exact ⟨fun _ => rfl, fun _ => rfl⟩
  | ldb x | ldrm x => obtain ⟨_, _, _, _, _, rfl, -⟩ := storeBytes_shape h; exact ⟨fun _ => rfl, fun _ => rfl⟩
  | ldv x => obtain ⟨_, _, _, _, _, rfl, -⟩ := execLdv_shape h; exact ⟨fun _ => rfl, fun _ => rfl⟩
  | drw x y n => obtain ⟨_, _, _, _, _, _, rfl, -⟩ := execDrw_shape h; exact ⟨fun _ => rfl, fun _ => rfl⟩
  | _ => cases h; exact ⟨fun _ => rfl, fun _ => rfl⟩

theorem step_of_known {s : State} {i : Instr} (h : s.halted = false) (hp : s.pc.toNat + 1 < 0x1000)
    (hd : decodedAtPc s = .known i) : step s = exec i (tick { s with pc := s.pc + 2 }) := by
  simp only [step_fetched h hp, hd]

/-- A step that gets past the fetch leaves each timer ticked once, but for the timer that its instruction writes. -/
theorem step_timers {s t : State} (hp : s.pc.toNat + 1 < 0x1000) (h : step s = .next t) :
    ((∀ x, decodedAtPc s ≠ .known (.lddt x)) → t.dt = countDown s.dt) ∧
    ((∀ x, decodedAtPc s ≠ .known (.ldst x)) → t.st = countDown s.st) := by
  obtain ⟨-, ⟨hfault, -⟩ | ⟨-, i, hd, hexec⟩ | ⟨-, high, low, -, rfl⟩⟩ := step_cases h
  · omega
  · obtain ⟨hdt, hst⟩ := exec_timers hexec
    exact ⟨fun hne => hdt fun x hi => hne x (hi ▸ hd), fun hne => hst fun x hi => hne x (hi ▸ hd)⟩
  · exact ⟨fun _ => rfl, fun _ => rfl⟩

/-- Settles O40: the step is its instruction run on the ticked state, and LDDT and LDST write after that tick; what they
leave meets its first tick in the next step. -/
theorem timerInstructionsSeeTheTick : Obligations.TimerInstructionsSeeTheTick := by
  refine fun s x h hp => ⟨fun hd => ?dtld, fun hd => ?lddt, fun hd => ?ldst⟩
  case dtld =>
    exact ⟨_, (step_of_known h hp hd).trans (exec_dtld x _), countDown_toNat s.dt, getV_setV_self _ x _⟩
  case lddt =>
    refine ⟨_, (step_of_known h hp hd).trans (exec_lddt x _), rfl, fun u hpt hu hne => ?_⟩
    obtain ⟨hdt, -⟩ := step_timers hpt hu
    rw [hdt hne, countDown_toNat]
    rfl
  case ldst =>
    refine ⟨_, (step_of_known h hp hd).trans (exec_ldst x _), rfl, fun u hpt hu hne => ?_⟩
    obtain ⟨-, hst⟩ := step_timers hpt hu
    rw [hst hne, countDown_toNat]
    rfl

end Sys2Proof
end

section
/-!
PROOFS. The timers and the sound output (spec/60_exceptions.md R108 and R113): what the tick does to both timers, which
steps tick, and what the sound output says of ST.
-/
namespace Sys2Proof

open Sys2Proof.Machine

/-! ## The steps that do not tick -/

/-- A fetch that faults ends the step before the tick (60_exceptions.md R108). -/
theorem step_timers_of_fetchFault {s t : State} (hp : 0x1000 ≤ s.pc.toNat + 1) (h : step s = .next t) :
    t.dt = s.dt ∧ t.st = s.st := by
  obtain ⟨hrun, -⟩ := step_cases h
  obtain rfl := Host.Outcome.next.inj ((step_of_fetchFault hrun hp).symm.trans h)
  exact ⟨raiseAt_dt .., raiseAt_st ..⟩

theorem step_ne_next_of_halted {s : State} (hh : s.halted = true) (t : State) : step s ≠ .next t := by
  intro h
  obtain ⟨hrun, -⟩ := step_cases h
  exact Bool.false_ne_true (hrun.symm.trans hh)

/-- Settles O10: past the fetch the step is its instruction run on the ticked state, and `step_timers` says what that
leaves in the timers; the steps that do not get there do not tick. -/
theorem timersTickOncePerExecutedInstruction : Obligations.TimersTickOncePerExecutedInstruction := by
  refine ⟨⟨rfl, rfl⟩, fun s => ⟨countDown_toNat s.dt, countDown_toNat s.st, tick_onlyChanges s⟩, ?pastFetch,
    fun _ _ => step_timers_of_fetchFault, fun _ t hh => step_ne_next_of_halted hh t⟩
  case pastFetch =>
    intro s t hrun hp h
    obtain ⟨hdt, hst⟩ := step_timers hp h
    refine ⟨fun i hd => (step_of_known hrun hp hd).symm.trans h, fun hne => ?_, fun hne => ?_⟩
    · rw [hdt hne, countDown_toNat]
    · rw [hst hne, countDown_toNat]

/-- Settles O56: the output compares ST with 0, and a byte is not 0 exactly when its number is positive. -/
theorem soundIsOnWhileTimerRuns : Obligations.SoundIsOnWhileTimerRuns :=
  fun s => (portSound_iff s).trans (BitVec.toNat_ne.trans Nat.pos_iff_ne_zero.symm)

end Sys2Proof
end

section
/-!
PROOFS. Reset with a ROM (spec/70_reset_and_hazards.md R119): the state that the clearing part of the procedure leaves,
and the only pieces of it that the rest can change, which are the cells of a ROM that fits, or the latch for one that
does not.
-/
namespace Sys2Proof

open Sys2Proof.Machine

/-- What Reset has cleared before it looks at the ROM's length; the stack entries and the model's count of random bytes
are those of the state before. -/
def clearedState (s : State) : State := { State.reset with stk := s.stk, rndCount := s.rndCount }

theorem clearedState_getV (s : State) (r : Reg) : (clearedState s).getV r = 0 := by
  simp [clearedState, State.reset, State.getV]

theorem clearedState_pixel (s : State) (c : Fin 64) (r : Fin 32) : (clearedState s).pixel c r = false :=
  pixel_blankFb (clearedState s) c r

theorem clearedState_key (s : State) (k : Fin 16) : (clearedState s).key[k] = false := by
  simp [clearedState, State.reset]

theorem clearedState_read (s : State) (a : Nat) : Memory.read (clearedState s).mem a = font.getD a 0 := rfl

/-! ## The two ways Reset ends -/

theorem portReset_of_fits {rom : List Byte} (s : State) (h : rom.length ≤ 3584) :
    portReset rom s = { clearedState s with mem := loadBytes 0x200 rom (clearedState s).mem } :=
  if_neg (Nat.not_lt.mpr h)

theorem portReset_of_tooLarge {rom : List Byte} (s : State) (h : 3584 < rom.length) :
    portReset rom s = raiseAt 0x200 .loadTooLarge 0 (clearedState s) :=
  if_pos h

theorem portReset_onlyChanges_of_fits {rom : List Byte} (s : State) (h : rom.length ≤ 3584) :
    OnlyChanges (fun p => ∃ k < rom.length, p = .mem (0x200 + k)) (clearedState s) (portReset rom s) :=
  portReset_of_fits s h ▸ loadBytes_onlyChanges rom 0x200 (clearedState s)

theorem portReset_onlyChanges_of_tooLarge {rom : List Byte} (s : State) (h : 3584 < rom.length) :
    OnlyChanges Part.isLatch (clearedState s) (portReset rom s) :=
  portReset_of_tooLarge s h ▸ raiseAt_onlyChanges 0x200 .loadTooLarge 0 (clearedState s)

/-- Whatever the ROM's length, Reset leaves the cleared state but for memory and the latch. -/
theorem portReset_onlyChanges (rom : List Byte) (s : State) :
    OnlyChanges (fun p => (∃ a, p = .mem a) ∨ p.isLatch) (clearedState s) (portReset rom s) := by
  rcases Nat.lt_or_ge 3584 rom.length with hlarge | hfits
  · exact (portReset_onlyChanges_of_tooLarge s hlarge).mono fun p => .inr
  · exact (portReset_onlyChanges_of_fits s hfits).mono fun p ⟨k, _, hp⟩ => .inl ⟨0x200 + k, hp⟩

/-- Settles O53: outside memory and the latch the state is the cleared one; a ROM that fits changes only the cells it is
copied to, and one that does not changes only the latch. -/
theorem resetLoadsRom : Obligations.ResetLoadsRom := by
  intro rom s
  have hkeeps := portReset_onlyChanges rom s
  refine ⟨fun r => ?v, ?i, ?sp, ?dt, ?st, fun c r => ?pixel, fun k => ?key, ?pc, fun hfits => ?fits,
    fun hlarge => ?tooLarge⟩
  case v => exact (hkeeps (.reg r) (by simp [Part.isLatch])).trans (clearedState_getV s r)
  case pixel => exact (hkeeps (.pixel c r) (by simp [Part.isLatch])).trans (clearedState_pixel s c r)
  case key => exact (hkeeps (.key k) (by simp [Part.isLatch])).trans (clearedState_key s k)
  case i => exact hkeeps .i (by simp [Part.isLatch])
  case sp => exact hkeeps .sp (by simp [Part.isLatch])
  case dt => exact hkeeps .dt (by simp [Part.isLatch])
  case st => exact hkeeps .st (by simp [Part.isLatch])
  case pc => exact hkeeps .pc (by simp [Part.isLatch])
  case fits =>
    have hframe := portReset_onlyChanges_of_fits s hfits
    refine ⟨hframe .halted (by simp), hframe .faultCode (by simp), hframe .faultPc (by simp),
      hframe .faultInfo (by simp), fun k hk => ?copied, fun a ha => ?elsewhere⟩
    case copied =>
      rw [portReset_of_fits s hfits]
      exact Memory.read_loadBytes_in rom 0x200 _ k hk
    case elsewhere =>
      have hout : ¬ ∃ k < rom.length, Part.mem a = .mem (0x200 + k) := by
        rintro ⟨k, hk, hmem⟩
        have hcell := Part.mem.inj hmem
        omega
      exact (hframe (.mem a) hout).trans (clearedState_read s a)
  case tooLarge =>
    refine ⟨?latch, fun a => ?noByte⟩
    case latch =>
      rw [portReset_of_tooLarge s hlarge]
      exact raiseAt_faulted ..
    case noByte =>
      exact (portReset_onlyChanges_of_tooLarge s hlarge (.mem a) (by simp [Part.isLatch])).trans (clearedState_read s a)

end Sys2Proof
end

section
/-!
PROOFS. The decoder and the encoder (spec/30_encoding.md): each format's word, unpacked into the bytes that the decoder
reads, gives `decodeWord (encode i) = i`; a word that a row of the opcode table takes is a word of the row's format, and
the decoder's branches are the formats read backwards.
-/
namespace Sys2Proof

open Sys2Proof.Machine

/-! ## Decoding a packed word -/

theorem decodeWord_append (high low : Byte) : decodeWord (high ++ low) = decode high low := by
  rw [decodeWord, highByte_append, lowByte_append]

theorem decodeWord_packXKK (op : Nibble) (x : Reg) (kk : Byte) :
    decodeWord (packXKK op x kk) = decode (op ++ BitVec.ofNat 4 x.val) kk := by
  rw [packXKK, decodeWord_append, regField_eq]

theorem decodeWord_packXYN (op : Nibble) (x y : Reg) (n : Nibble) :
    decodeWord (packXYN op x y n) = decode (op ++ BitVec.ofNat 4 x.val) (BitVec.ofNat 4 y.val ++ n) := by
  rw [packXYN, decodeWord_append, regField_eq, regField_eq]

theorem decodeWord_packAddr (op : Nibble) (addr : Addr12) :
    decodeWord (packAddr op addr) = decode (op ++ addr.extractLsb' 8 4) (addr.extractLsb' 0 8) := by
  rw [packAddr_eq, decodeWord_append]

theorem decode_rnd (x : Reg) (kk : Byte) : decode (0xC#4 ++ BitVec.ofNat 4 x.val) kk = .known (.rnd x kk) := by
  simp only [decode, highNibble_append, lowNibble_append, fieldReg_ofNat]

/-- Settles O1: each format is unpacked once, and each instruction's own decoding does the rest. -/
theorem decodeInvertsEncode : Obligations.DecodeInvertsEncode := by
  intro i
  cases i with
  | cls => exact (decodeWord_packXKK _ _ _).trans (decode_cls _)
  | ret => exact (decodeWord_packXKK _ _ _).trans (decode_ret _)
  | jp addr => exact (decodeWord_packAddr _ _).trans (decode_jp addr)
  | call addr => exact (decodeWord_packAddr _ _).trans (decode_call addr)
  | ldi addr => exact (decodeWord_packAddr _ _).trans (decode_ldi addr)
  | se x kk => exact (decodeWord_packXKK _ _ _).trans (decode_se x kk)
  | sne x kk => exact (decodeWord_packXKK _ _ _).trans (decode_sne x kk)
  | ld x kk => exact (decodeWord_packXKK _ _ _).trans (decode_ld x kk)
  | add x kk => exact (decodeWord_packXKK _ _ _).trans (decode_add x kk)
  | rnd x kk => exact (decodeWord_packXKK _ _ _).trans (decode_rnd x kk)
  | ldr x y => exact (decodeWord_packXYN _ _ _ _).trans (decode_ldr x y)
  | and x y => exact (decodeWord_packXYN _ _ _ _).trans (decode_and x y)
  | xor x y => exact (decodeWord_packXYN _ _ _ _).trans (decode_xor x y)
  | addc x y => exact (decodeWord_packXYN _ _ _ _).trans (decode_addc x y)
  | sub x y => exact (decodeWord_packXYN _ _ _ _).trans (decode_sub x y)
  | drw x y n => exact (decodeWord_packXYN _ _ _ _).trans (regField_eq n ▸ decode_drw x y n)
  | dtld x => exact (decodeWord_packXKK _ _ _).trans (decode_dtld x)
  | lddt x => exact (decodeWord_packXKK _ _ _).trans (decode_lddt x)
  | ldst x => exact (decodeWord_packXKK _ _ _).trans (decode_ldst x)
  | addi x => exact (decodeWord_packXKK _ _ _).trans (decode_addi x)
  | ldf x => exact (decodeWord_packXKK _ _ _).trans (decode_ldf x)
  | ldb x => exact (decodeWord_packXKK _ _ _).trans (decode_ldb x)
  | ldrm x => exact (decodeWord_packXKK _ _ _).trans (decode_ldrm x)
  | ldv x => exact (decodeWord_packXKK _ _ _).trans (decode_ldv x)

/-! ## Every word in every format -/

theorem packXKK_fields (high low : Byte) :
    packXKK (highNibble high) (fieldReg (lowNibble high)) low = high ++ low := by
  rw [packXKK, regField_fieldReg, highNibble_append_lowNibble]

theorem packXYN_fields (high low : Byte) :
    packXYN (highNibble high) (fieldReg (lowNibble high)) (fieldReg (highNibble low)) (lowNibble low) =
      high ++ low := by
  rw [packXYN, regField_fieldReg, regField_fieldReg, highNibble_append_lowNibble, highNibble_append_lowNibble]

theorem packAddr_fields (high low : Byte) : packAddr (highNibble high) (lowNibble high ++ low) = high ++ low := by
  have hassoc : ((highNibble high ++ lowNibble high : Byte) ++ low : Word) =
      highNibble high ++ (lowNibble high ++ low : Addr12) := BitVec.append_assoc
  rw [packAddr, ← hassoc, highNibble_append_lowNibble]

/-- The decoder's branches read backwards: a word that decodes to an instruction is the instruction's own word, but for
the ignored bits of CLS and RET. Each branch fixes the fields that select its instruction, and the word of a format is
packed from its fields. -/
theorem encode_of_decode {high low : Byte} {i : Instr} (h : decode high low = .known i) :
    encode i = if i = .cls ∨ i = .ret then (high ++ low : Word) &&& 0xF0FF else high ++ low := by
  have hXKK := packXKK_fields high low
  have hXYN := packXYN_fields high low
  have hAddr := packAddr_fields high low
  have hmask := packXKK_mask_low (highNibble high) (fieldReg (lowNibble high)) low
  rw [hXKK] at hmask
  revert h
  fun_cases decode high low
  all_goals rintro ⟨⟩
  all_goals simp_all +zetaDelta [encode]

/-- Settles O2: a word is its two bytes, and `encode_of_decode` speaks of those. -/
theorem encodeInvertsDecode : Obligations.EncodeInvertsDecode := by
  intro w i h
  have henc := encode_of_decode h
  rwa [highByte_append_lowByte] at henc

/-! ## The Unknown space -/

theorem nibble_opcodes : ∀ op : Nibble,
    op ∈ [0x0, 0x1, 0x2, 0x3, 0x4, 0x6, 0x7, 0x8, 0xA, 0xC, 0xD, 0xF] ∨ op ∈ [0x5, 0x9, 0xB, 0xE] := by decide

/-- The bytes of the Unknown space of 30_encoding.md R56. -/
def InUnknownSpace (high low : Byte) : Prop :=
  (highNibble high = 0x0 ∧ low ∉ [0xE0, 0xEE]) ∨ highNibble high ∈ [0x5, 0x9, 0xB, 0xE] ∨
    (highNibble high = 0x8 ∧ lowNibble low ∉ [0, 2, 3, 4, 5]) ∨
    (highNibble high = 0xF ∧ low ∉ [0x07, 0x15, 0x18, 0x1E, 0x29, 0x33, 0x55, 0x65])

theorem decode_eq_unknown_iff (high low : Byte) : decode high low = .unknown high low ↔ InUnknownSpace high low := by
  have hop := nibble_opcodes (highNibble high)
  unfold InUnknownSpace
  fun_cases decode high low
  all_goals simp_all +zetaDelta

/-- The decoder answers no other sentinel than the one of its own two bytes. -/
theorem inUnknownSpace_of_decode {high low h l : Byte} (hd : decode high low = .unknown h l) :
    InUnknownSpace high low := by
  rw [← decode_eq_unknown_iff]
  revert hd
  fun_cases decode high low
  all_goals simp

theorem highNibble_highByte_toNat (w : Word) : (highNibble (highByte w)).toNat = w.toNat / 0x1000 := by
  simp only [highNibble, highByte, BitVec.extractLsb'_toNat, Nat.shiftRight_eq_div_pow]
  omega

theorem lowByte_toNat (w : Word) : (lowByte w).toNat = w.toNat % 0x100 := by
  simp [lowByte]

theorem lowNibble_lowByte_toNat (w : Word) : (lowNibble (lowByte w)).toNat = w.toNat % 0x10 := by
  simp [lowNibble, lowByte]

/-- Settles O4: the Unknown space of the fields, each field read as a number. -/
theorem unknownSpaceIsExact : Obligations.UnknownSpaceIsExact := by
  intro w
  simp only [decodeWord, decode_eq_unknown_iff, InUnknownSpace, ← highNibble_highByte_toNat, ← lowByte_toNat,
    ← lowNibble_lowByte_toNat, List.mem_cons, BitVec.toNat_eq]
  simp

/-! ## The opcode table -/

@[simp] theorem highByte_and (v w : Word) : highByte (v &&& w) = highByte v &&& highByte w :=
  BitVec.extractLsb'_and

@[simp] theorem lowByte_and (v w : Word) : lowByte (v &&& w) = lowByte v &&& lowByte w :=
  BitVec.extractLsb'_and

@[simp] theorem highNibble_and (a b : Byte) : highNibble (a &&& b) = highNibble a &&& highNibble b :=
  BitVec.extractLsb'_and

@[simp] theorem lowNibble_and (a b : Byte) : lowNibble (a &&& b) = lowNibble a &&& lowNibble b :=
  BitVec.extractLsb'_and

theorem OpcodeRow.takes_iff (row : OpcodeRow) (w : Word) : row.takes w = true ↔ w &&& row.mask = row.pattern :=
  beq_iff_eq

/-- No row reaches into the Unknown space: each row's mask holds the fields that its opcode is told apart by, and its
pattern holds values of them outside that space. -/
theorem opcodeTable_avoids_unknownSpace : ∀ row ∈ opcodeTable,
    highNibble (highByte row.mask) = 0xF#4 ∧ highNibble (highByte row.pattern) ∉ [0x5, 0x9, 0xB, 0xE] ∧
    (highNibble (highByte row.pattern) = 0x0 → lowByte row.mask = 0xFF#8 ∧ lowByte row.pattern ∈ [0xE0, 0xEE]) ∧
    (highNibble (highByte row.pattern) = 0x8 →
      lowNibble (lowByte row.mask) = 0xF#4 ∧ lowNibble (lowByte row.pattern) ∈ [0, 2, 3, 4, 5]) ∧
    (highNibble (highByte row.pattern) = 0xF →
      lowByte row.mask = 0xFF#8 ∧ lowByte row.pattern ∈ [0x07, 0x15, 0x18, 0x1E, 0x29, 0x33, 0x55, 0x65]) := by
  decide

theorem not_inUnknownSpace_of_takes {row : OpcodeRow} {w : Word} (hrow : row ∈ opcodeTable)
    (h : row.takes w = true) : ¬ InUnknownSpace (highByte w) (lowByte w) := by
  rw [OpcodeRow.takes_iff] at h
  obtain ⟨hmask, hop, h0, h8, hF⟩ := opcodeTable_avoids_unknownSpace row hrow
  rw [← h, highByte_and, highNibble_and, hmask, nibble_mask] at hop h0 h8 hF
  rintro (⟨hw, hlow⟩ | hw | ⟨hw, hn⟩ | ⟨hw, hlow⟩)
  · obtain ⟨hbyte, hmem⟩ := h0 hw
    rw [lowByte_and, hbyte, byte_mask] at hmem
    exact hlow hmem
  · exact hop hw
  · obtain ⟨hnib, hmem⟩ := h8 hw
    rw [lowByte_and, lowNibble_and, hnib, nibble_mask] at hmem
    exact hn hmem
  · obtain ⟨hbyte, hmem⟩ := hF hw
    rw [lowByte_and, hbyte, byte_mask] at hmem
    exact hlow hmem

/-- No word is taken by two rows: their patterns differ in a bit that both masks hold. -/
theorem opcodeTable_disjoint : ∀ row ∈ opcodeTable, ∀ row' ∈ opcodeTable,
    row.pattern &&& row'.mask = row'.pattern &&& row.mask → row.mnemonic = row'.mnemonic := by
  decide

theorem opcodeTable_mnemonics_nodup : (opcodeTable.map OpcodeRow.mnemonic).Nodup := by decide

theorem mnemonic_eq_of_takes {row row' : OpcodeRow} {w : Word} (hrow : row ∈ opcodeTable)
    (hrow' : row' ∈ opcodeTable) (h : row.takes w = true) (h' : row'.takes w = true) :
    row.mnemonic = row'.mnemonic := by
  rw [OpcodeRow.takes_iff] at h h'
  refine opcodeTable_disjoint row hrow row' hrow' ?_
  rw [← h, ← h', BitVec.and_assoc, BitVec.and_assoc, BitVec.and_comm row.mask]

open Laws.EncodedWord in
/-- The per-instruction laws, put together. -/
theorem row_of_encode (i : Instr) : Statement i := by
  cases i
  exacts [cls, ret, jp _, call _, se _ _, sne _ _, ld _ _, add _ _, ldr _ _, and _ _, xor _ _, addc _ _, sub _ _,
    ldi _, rnd _ _, drw _ _ _, dtld _, lddt _, ldst _, addi _, ldf _, ldb _, ldrm _, ldv _]

/-- An instruction's own row takes every word that decodes to it. -/
theorem row_of_decodeWord {w : Word} {i : Instr} (h : decodeWord w = .known i) :
    ∃ row ∈ opcodeTable, row.mnemonic = i.mnemonic ∧ row.takes w = true := by
  have henc := encodeInvertsDecode w i h
  by_cases hcls : i = .cls
  · subst hcls
    exact ⟨⟨"CLS", 0x00E0, 0xF0FF⟩, by decide, rfl, (OpcodeRow.takes_iff _ _).mpr henc.symm⟩
  · by_cases hret : i = .ret
    · subst hret
      exact ⟨⟨"RET", 0x00EE, 0xF0FF⟩, by decide, rfl, (OpcodeRow.takes_iff _ _).mpr henc.symm⟩
    · rw [if_neg (by simp [hcls, hret])] at henc
      exact henc ▸ row_of_encode i

/-- Settles O3: a row that takes the word keeps it out of the Unknown space; an instruction's own row takes its word;
and rows that share a word, or a mnemonic, are one. -/
theorem decoderAgreesWithOpcodeTable : Obligations.DecoderAgreesWithOpcodeTable := by
  intro w row hrow
  constructor
  · intro htakes
    cases hd : decodeWord w with
    | known i =>
      obtain ⟨row', hrow', hname, htakes'⟩ := row_of_decodeWord hd
      exact ⟨i, rfl, hname.symm.trans (mnemonic_eq_of_takes hrow' hrow htakes' htakes)⟩
    | unknown high low =>
      exact absurd (inUnknownSpace_of_decode hd) (not_inUnknownSpace_of_takes hrow htakes)
  · rintro ⟨i, hd, hname⟩
    obtain ⟨row', hrow', hname', htakes'⟩ := row_of_decodeWord hd
    rwa [List.inj_on_of_nodup_map opcodeTable_mnemonics_nodup hrow hrow' (hname.symm.trans hname'.symm)]

/-- Settles O5: each sample is a closed decoding. -/
theorem sampleWordsDecode : Obligations.SampleWordsDecode := by
  unfold Obligations.SampleWordsDecode
  decide

end Sys2Proof
end

section
/-!
PROOFS. What Execute does, over every instruction at once (spec/10_state.md sections 1 and 2, spec/60_exceptions.md
section 2): that it answers a next state, which pieces of state it leaves alone, which registers it may write, and when
it raises the latch. Each is one case split over the instructions, through the shapes of Laws/Exec.lean.
-/
namespace Sys2Proof

open Sys2Proof.Machine

/-! ## What is written by whom -/

/-- What Execute leaves alone, but for the instructions named (10_state.md R18); the timers are `exec_timers`. -/
structure KeptByExec (i : Instr) (s t : State) : Prop where
  mem : (∀ x, i ≠ .ldb x ∧ i ≠ .ldrm x) → t.mem = s.mem
  fb : (i ≠ .cls ∧ ∀ x y n, i ≠ .drw x y n) → t.fb = s.fb
  index : (∀ a x, i ≠ .ldi a ∧ i ≠ .addi x ∧ i ≠ .ldf x) → t.i = s.i
  pc : (i ≠ .ret ∧ ∀ a x kk, i ≠ .jp a ∧ i ≠ .call a ∧ i ≠ .se x kk ∧ i ≠ .sne x kk) → t.pc = s.pc
  stack : (i ≠ .ret ∧ ∀ a, i ≠ .call a) → t.sp = s.sp ∧ t.stk = s.stk
  key : t.key = s.key
  rndCount : (∀ x kk, i ≠ .rnd x kk) → t.rndCount = s.rndCount

theorem exec_kept {i : Instr} {s t : State} (h : exec i s = .next t) : KeptByExec i s t := by
  cases i with
  | ret => obtain ⟨_, _, rfl⟩ | ⟨_, rfl⟩ := execRet_cases h <;> constructor <;> simp
  | call addr => obtain ⟨_, rfl⟩ | ⟨_, rfl⟩ := execCall_cases h <;> constructor <;> simp
  | se x kk => rw [exec_se] at h; cases h; constructor <;> simp
  | sne x kk => rw [exec_sne] at h; cases h; constructor <;> simp
  | addc x y | sub x y => cases h; split <;> constructor <;> simp
  | ldb x | ldrm x => obtain ⟨_, _, _, _, _, rfl, -⟩ := storeBytes_shape h; constructor <;> simp
  | ldv x => obtain ⟨_, _, _, _, _, rfl, -⟩ := execLdv_shape h; constructor <;> simp
  | drw x y n => obtain ⟨_, _, _, _, _, _, rfl, -⟩ := execDrw_shape h; constructor <;> simp
  | _ => cases h; constructor <;> simp

/-- Settles O43: `exec_kept`, and `exec_timers` for the timers. -/
theorem eachStateHasItsWriters : Obligations.EachStateHasItsWriters := by
  intro i s t h
  have hkept := exec_kept h
  obtain ⟨hdt, hst⟩ := exec_timers h
  exact ⟨hkept.mem, hkept.fb, hkept.index, hkept.pc, hkept.stack, hdt, hst, hkept.key⟩

/-- Settles O42: the register writes of each instruction; the loops of LDV and DRW bring theirs with their shapes. -/
theorem onlyNamedRegistersAreWritten : Obligations.OnlyNamedRegistersAreWritten := by
  intro i s t r h hr
  cases i with
  | ret => obtain ⟨_, _, rfl⟩ | ⟨_, rfl⟩ := execRet_cases h <;> rfl
  | call addr => obtain ⟨_, rfl⟩ | ⟨_, rfl⟩ := execCall_cases h <;> rfl
  | se x kk => rw [exec_se] at h; cases h; rfl
  | sne x kk => rw [exec_sne] at h; cases h; rfl
  | ldb x | ldrm x => obtain ⟨_, _, _, _, _, rfl, -⟩ := storeBytes_shape h; rfl
  | ldv x => obtain ⟨_, _, _, _, _, rfl, hv⟩ := execLdv_shape h; exact hv r hr
  | drw x y n =>
    obtain ⟨_, _, _, _, _, _, rfl, hv⟩ := execDrw_shape h
    exact hv r ((not_and_or.mp hr).symm.imp_right not_not.mp)
  | addc x y =>
    obtain ⟨hx, hF⟩ := not_or.mp hr
    cases h
    split
    · exact getV_setV_ne _ _ _ _ hF
    · exact getV_setV_ne _ _ _ _ hx
  | sub x y =>
    obtain ⟨hx, hF⟩ := not_or.mp hr
    cases h
    split
    · exact (getV_setV_ne _ _ _ _ hx).trans (getV_setV_ne _ _ _ _ hF)
    · rfl
  | ld x _ | add x _ | ldr x _ | and x _ | xor x _ | rnd x _ | dtld x => cases h; exact getV_setV_ne _ _ _ _ hr
  | _ => cases h; rfl

/-! ## RND -/

theorem exec_rnd (x : Reg) (kk : Byte) (s : State) : exec (.rnd x kk) s =
    .next ({ s with rndCount := s.rndCount + 1 }.setV x (Config.rndIn s.rndCount &&& kk)) := rfl

theorem setRndCount_onlyChanges (s : State) (k : Nat) : OnlyChanges (· ∈ [Part.rnd]) s { s with rndCount := k } := by
  intro p hp
  cases p with
  | rnd => exact absurd (by simp) hp
  | _ => exact rfl

/-- Settles O26: the byte is the one of the state's count; RND writes the count and one register. -/
theorem rndMasksADrawnByte : Obligations.RndMasksADrawnByte := by
  refine ⟨decode_rnd, fun s => ⟨Config.rndIn s.rndCount, fun x kk => ⟨_, exec_rnd x kk s, getV_setV_self _ x _, ?_⟩⟩⟩
  exact .trans ((setRndCount_onlyChanges s _).mono (by simp)) ((setV_onlyChanges _ x _).mono (by simp))

/-- Settles O27: RND advances the count, and `exec_kept` says that nothing else writes it. -/
theorem onlyRndTakesRandomBytes : Obligations.OnlyRndTakesRandomBytes :=
  ⟨fun x kk s => ⟨_, exec_rnd x kk s, getV_setV_self _ x _, rfl⟩, fun _ _ _ hne h => (exec_kept h).rndCount hne⟩

/-! ## Completion and faults -/

theorem exec_next (i : Instr) (s : State) : ∃ t, exec i s = .next t := by
  cases i with
  | ret => simp only [exec, execRet]; split <;> exact ⟨_, rfl⟩
  | call addr => simp only [exec, execCall]; split <;> exact ⟨_, rfl⟩
  | ldb x | ldrm x | ldv x | drw x y n => exact finish_next _
  | _ => exact ⟨_, rfl⟩

/-- Settles O11: a fetch fault, an Unknown word and an instruction each answer a next state. -/
theorem unhaltedCoreAlwaysSteps : Obligations.UnhaltedCoreAlwaysSteps := by
  intro s h
  by_cases hp : s.pc.toNat + 1 < 0x1000
  · cases hd : decodedAtPc s with
    | known i => exact step_of_known h hp hd ▸ exec_next i _
    | unknown high low => exact ⟨_, step_of_unknown h hp hd⟩
  · exact ⟨_, step_of_fetchFault h (Nat.not_lt.mp hp)⟩

/-- The latch holds in `t` what it holds in `s`. -/
def LatchKept (s t : State) : Prop :=
  t.halted = s.halted ∧ t.faultCode = s.faultCode ∧ t.faultPc = s.faultPc ∧ t.faultInfo = s.faultInfo

theorem storeBytes_latch {bs : List Byte} {s t : State} (h : finish (storeBytes (dataAddr s 0) bs s) = .next t) :
    ((bs = [] ∨ s.i.toNat + bs.length ≤ 0x1000) ∧ LatchKept s t) ∨
      (¬ (bs = [] ∨ s.i.toNat + bs.length ≤ 0x1000) ∧ ∃ info, Faulted .memRange (s.pc - 2) info t) := by
  obtain ⟨hroom, rfl⟩ | ⟨⟨hne, hover⟩, rfl⟩ := storeBytes_cases h
  · exact .inl ⟨hroom, rfl, rfl, rfl, rfl⟩
  · exact .inr ⟨not_or.mpr ⟨hne, Nat.not_le.mpr hover⟩, _, raiseAt_faulted ..⟩

theorem exec_ldv_latch {x : Reg} {s t : State} (h : exec (.ldv x) s = .next t) :
    ((x = 0 ∨ s.i.toNat + x.val ≤ 0x1000) ∧ LatchKept s t) ∨
      (¬ (x = 0 ∨ s.i.toNat + x.val ≤ 0x1000) ∧ ∃ info, Faulted .memRange (s.pc - 2) info t) := by
  by_cases hroom : x = 0 ∨ s.i.toNat + x.val ≤ 0x1000
  · rw [exec_ldv_of_room hroom] at h
    obtain ⟨v, hfill⟩ := fillRegs_eq (bulkRegs x) s.i.toNat s
    rw [hfill] at h
    cases h
    exact .inl ⟨hroom, rfl, rfl, rfl, rfl⟩
  · obtain ⟨hx, hover⟩ := not_or.mp hroom
    rw [exec_ldv_of_overrun hx (Nat.not_le.mp hover)] at h
    cases h
    exact .inr ⟨hroom, _, raiseAt_faulted ..⟩

theorem exec_drw_latch {x y : Reg} {n : Fin 16} {s t : State} (h : exec (.drw x y n) s = .next t) :
    ((n = 0 ∨ s.i.toNat + n.val ≤ 0x1000) ∧ LatchKept s t) ∨
      (¬ (n = 0 ∨ s.i.toNat + n.val ≤ 0x1000) ∧ ∃ info, Faulted .memRange (s.pc - 2) info t) := by
  by_cases hroom : n = 0 ∨ s.i.toNat + n.val ≤ 0x1000
  · rw [exec_drw_of_room hroom] at h
    obtain ⟨v, fb, hpaint, -⟩ := paintRows_eq (s.getV x) (s.getV y) n.val 0 s
    rw [hpaint] at h
    cases h
    exact .inl ⟨hroom, rfl, rfl, rfl, rfl⟩
  · obtain ⟨hn, hover⟩ := not_or.mp hroom
    rw [exec_drw_of_overrun hn (Nat.not_le.mp hover)] at h
    cases h
    exact .inr ⟨hroom, _, raiseAt_faulted ..⟩

/-- Execute leaves the latch as it was exactly when the instruction runs in the state; otherwise it raises the
instruction's one cause at the instruction's own address (60_exceptions.md R104). -/
theorem exec_latch {i : Instr} {s t : State} (h : exec i s = .next t) :
    (i.runsIn s ∧ LatchKept s t) ∨
      (¬ i.runsIn s ∧ i.cause ≠ .none ∧ ∃ info, Faulted i.cause (s.pc - 2) info t) := by
  cases i with
  | ret =>
    obtain ⟨k, hk, rfl⟩ | ⟨h0, rfl⟩ := execRet_cases h
    · exact .inl ⟨Nat.lt_of_lt_of_eq k.val.succ_pos hk.symm, rfl, rfl, rfl, rfl⟩
    · exact .inr ⟨Nat.not_lt.mpr h0.le, nofun, 0, raiseAt_faulted ..⟩
  | call addr =>
    obtain ⟨hk, rfl⟩ | ⟨h16, rfl⟩ := execCall_cases h
    · exact .inl ⟨hk, rfl, rfl, rfl, rfl⟩
    · exact .inr ⟨Nat.not_lt.mpr h16.ge, nofun, 0, raiseAt_faulted ..⟩
  | ldb x =>
    obtain ⟨hroom, hkept⟩ | ⟨hover, hfault⟩ := storeBytes_latch h
    · exact .inl ⟨hroom.resolve_left (List.cons_ne_nil _ _), hkept⟩
    · exact .inr ⟨fun hrun => hover (.inr hrun), nofun, hfault⟩
  | ldrm x =>
    have hcases := storeBytes_latch h
    rw [bulkValues_eq_nil, bulkValues_length] at hcases
    exact hcases.imp_right fun ⟨hover, hfault⟩ => ⟨hover, nofun, hfault⟩
  | ldv x => exact (exec_ldv_latch h).imp_right fun ⟨hover, hfault⟩ => ⟨hover, nofun, hfault⟩
  | drw x y n => exact (exec_drw_latch h).imp_right fun ⟨hover, hfault⟩ => ⟨hover, nofun, hfault⟩
  | se x kk => rw [exec_se] at h; cases h; exact .inl ⟨trivial, rfl, rfl, rfl, rfl⟩
  | sne x kk => rw [exec_sne] at h; cases h; exact .inl ⟨trivial, rfl, rfl, rfl, rfl⟩
  | addc x y | sub x y => cases h; split <;> exact .inl ⟨trivial, rfl, rfl, rfl, rfl⟩
  | _ => cases h; exact .inl ⟨trivial, rfl, rfl, rfl, rfl⟩

/-- Settles O41: the two cases of `exec_latch`, on a latch that was clear. -/
theorem instructionsFaultExactlyWhen : Obligations.InstructionsFaultExactlyWhen := by
  intro i s hs
  obtain ⟨t, ht⟩ := exec_next i s
  refine ⟨t, ht, ?_⟩
  obtain ⟨hrun, hhalted, -⟩ | ⟨hrun, -, info, hhalted, hcode, hpc, -⟩ := exec_latch ht
  · rw [hs] at hhalted
    exact ⟨iff_of_true hhalted hrun, fun hc => absurd (hhalted.symm.trans hc) Bool.false_ne_true⟩
  · exact ⟨iff_of_false (by simp [hhalted]) hrun, fun _ => ⟨hcode, hpc⟩⟩

end Sys2Proof
end

section
/-!
PROOFS. The three invariants (spec/20_memory.md section 1, spec/10_state.md sections 5 and 10): each holds after reset,
is kept by Execute and so by every step. Execute's part of each is read off what Execute leaves alone.
-/
namespace Sys2Proof

open Sys2Proof.Machine

/-! ## The canonical memory -/

theorem exec_memoryCanonical {i : Instr} {s t : State} (hs : MemoryCanonical s) (h : exec i s = .next t) :
    MemoryCanonical t := by
  by_cases hmem : ∀ x, i ≠ .ldb x ∧ i ≠ .ldrm x
  · rw [MemoryCanonical, (exec_kept h).mem hmem]
    exact hs
  · simp only [not_forall, not_and_or, not_not] at hmem
    obtain ⟨x, rfl | rfl⟩ := hmem
    all_goals
      obtain ⟨m, _, _, _, _, rfl, hwf⟩ := storeBytes_shape h
      exact hwf hs

/-- Settles O46: only a storing instruction writes memory, and a store keeps the canonical form. -/
theorem stepKeepsMemoryCanonical : Obligations.StepKeepsMemoryCanonical := by
  intro s t hs h
  obtain ⟨-, ⟨-, rfl⟩ | ⟨-, i, -, hexec⟩ | ⟨-, high, low, -, rfl⟩⟩ := step_cases h
  · exact hs
  · exact exec_memoryCanonical (s := tick { s with pc := s.pc + 2 }) hs hexec
  · exact hs

/-! ## The bound of PC -/

theorem toNat_add_two_le {w : Word} {n : Nat} (h : w.toNat ≤ n) : (w + 2).toNat ≤ n + 2 := by
  rw [BitVec.toNat_add]
  exact (Nat.mod_le _ _).trans (Nat.add_le_add_right h 2)

theorem zextAddr_lt (addr : Addr12) : (zextAddr addr).toNat < 0x1000 := by
  rw [zextAddr_toNat]
  exact addr.isLt

/-- Execute starts at a PC that the fetch has advanced, at most to 0x1000, and a skip goes one word further. -/
theorem exec_pcBounded {i : Instr} {s t : State} (hpc : s.pc.toNat ≤ 0x1000)
    (hstk : ∀ k : Fin 16, k.val < s.sp.val → s.stk[k].toNat ≤ 0x1000) (h : exec i s = .next t) : PcBounded t := by
  have hnext : s.pc.toNat ≤ 0x1002 := by omega
  have hskip : (s.pc + 2).toNat ≤ 0x1002 := toNat_add_two_le hpc
  cases i with
  | ret =>
    obtain ⟨k, hk, rfl⟩ | ⟨-, rfl⟩ := execRet_cases h
    · have hpop : s.stk[k].toNat ≤ 0x1000 := hstk k (by omega)
      exact ⟨hpop.trans (by decide), fun j (hj : j.val < k.val) => hstk j (by omega)⟩
    · exact ⟨hnext, hstk⟩
  | call addr =>
    obtain ⟨hroom, rfl⟩ | ⟨-, rfl⟩ := execCall_cases h
    · refine ⟨(zextAddr_lt addr).le.trans (by decide), fun j (hj : j.val < s.sp.val + 1) => ?_⟩
      show (s.stk.set s.sp.val s.pc hroom)[j.val].toNat ≤ 0x1000
      rw [Vector.getElem_set]
      split
      · exact hpc
      · exact hstk j (by omega)
    · exact ⟨hnext, hstk⟩
  | jp addr => cases h; exact ⟨(zextAddr_lt addr).le.trans (by decide), hstk⟩
  | se x kk => cases h; split <;> exact ⟨by assumption, hstk⟩
  | sne x kk => cases h; split <;> exact ⟨by assumption, hstk⟩
  | _ =>
    obtain ⟨hsp, hstk'⟩ := (exec_kept h).stack (by simp)
    rw [PcBounded, (exec_kept h).pc (by simp), hsp, hstk']
    exact ⟨hnext, hstk⟩

/-- Settles O47: a fetch succeeds at 0xFFE at most, so that Execute starts at 0x1000 at most. -/
theorem stepKeepsPcBounded : Obligations.StepKeepsPcBounded := by
  intro s t ⟨hpc, hstk⟩ h
  obtain ⟨-, ⟨-, rfl⟩ | ⟨hp, i, -, hexec⟩ | ⟨hp, high, low, -, rfl⟩⟩ := step_cases h
  · exact ⟨hpc, hstk⟩
  · have hadvance : (s.pc + 2).toNat ≤ 0x1000 := toNat_add_two_le (by omega)
    exact exec_pcBounded (s := tick { s with pc := s.pc + 2 }) hadvance hstk hexec
  · have hadvance : (s.pc + 2).toNat ≤ 0x1002 := toNat_add_two_le (by omega)
    exact ⟨hadvance, hstk⟩

/-! ## The latch -/

theorem latchConsistent_of_faulted {code : FaultCode} {cur info : Word} {t : State} (h : Faulted code cur info t)
    (hcode : code ≠ .none) : LatchConsistent t := by
  obtain ⟨hhalted, hcause, -⟩ := h
  exact ⟨fun hrun => absurd (hrun.symm.trans hhalted) Bool.false_ne_true, fun _ => hcause ▸ hcode⟩

theorem LatchKept.latchConsistent {s t : State} (h : LatchKept s t) (hs : LatchConsistent s) : LatchConsistent t := by
  obtain ⟨hhalted, hcode, hpc, hinfo⟩ := h
  rwa [LatchConsistent, hhalted, hcode, hpc, hinfo]

/-- Settles O48: a step leaves the latch as it was or raises a cause. -/
theorem stepKeepsLatchConsistent : Obligations.StepKeepsLatchConsistent := by
  intro s t hs h
  obtain ⟨-, ⟨-, rfl⟩ | ⟨-, i, -, hexec⟩ | ⟨-, high, low, -, rfl⟩⟩ := step_cases h
  · exact latchConsistent_of_faulted (raiseAt_faulted ..) nofun
  · obtain ⟨-, hkept⟩ | ⟨-, hcause, info, hfault⟩ := exec_latch hexec
    · exact hkept.latchConsistent hs
    · exact latchConsistent_of_faulted hfault hcause
  · exact latchConsistent_of_faulted (raiseAt_faulted ..) nofun

/-! ## Reset -/

/-- Settles O54: the ROM fills cells below 0x1000, and the cleared state has PC = 0x200, no stack entry in use and a
clear latch. -/
theorem resetWithRomSatisfiesInvariants : Obligations.ResetWithRomSatisfiesInvariants := by
  intro rom s hfits
  rw [portReset_of_fits s hfits]
  refine ⟨?memory, ?pc, ?latch⟩
  case memory => exact Memory.wf_loadBytes rom 0x200 [] (by simp only [Config.memSize]; omega) Memory.wf_nil
  case pc => exact ⟨(by decide : 0x200 ≤ 0x1002), fun k hk => absurd hk k.val.not_lt_zero⟩
  case latch => exact ⟨fun _ => ⟨rfl, rfl, rfl⟩, nofun⟩

/-- Settles O49: reset is the host's reset with an empty ROM. -/
theorem resetSatisfiesInvariants : Obligations.ResetSatisfiesInvariants :=
  resetWithRomSatisfiesInvariants [] State.reset (by decide)

end Sys2Proof
end

section
/-!
PROOFS. Noninterference of the keypad and the sound timer (spec/60_exceptions.md section 5, spec/10_state.md section 7).
No instruction reads either of them, so one lemma says for both that Execute commutes with overwriting them, and each
statement is a case of it.
-/
namespace Sys2Proof

open Sys2Proof.Machine

/-- The state with other keys and another sound timer. -/
def withKeySt (keys : Vector Bool 16) (v : Byte) (s : State) : State := { s with key := keys, st := v }

theorem fillRegs_withKeySt (keys : Vector Bool 16) (v : Byte) (rs : List Reg) (a : Nat) (s : State) :
    fillRegs a rs (withKeySt keys v s) = withKeySt keys v (fillRegs a rs s) := by
  induction rs generalizing a s with
  | nil => rfl
  | cons r rs ih => exact ih (a + 1) (s.setV r (Memory.read s.mem a))

theorem drawBits_withKeySt (keys : Vector Bool 16) (v : Byte) (b cx cy : Byte) (r c n : Nat) (s : State) :
    drawBits b cx cy r c n (withKeySt keys v s) = withKeySt keys v (drawBits b cx cy r c n s) := by
  induction n generalizing c s with
  | zero => rfl
  | succ n ih => exact ih (c + 1) (drawBit b cx cy r c s)

theorem paintRows_withKeySt (keys : Vector Bool 16) (v : Byte) (cx cy : Byte) (r n : Nat) (s : State) :
    paintRows cx cy r n (withKeySt keys v s) = withKeySt keys v (paintRows cx cy r n s) := by
  induction n generalizing r s with
  | zero => rfl
  | succ n ih =>
    refine Eq.trans ?_ (ih (r + 1) _)
    exact congrArg (paintRows cx cy (r + 1) n) (drawBits_withKeySt keys v _ cx cy r 0 8 s)

/-! ## Execute -/

theorem storeBytes_withKeySt {bs : List Byte} {a : Nat} {s t : State} (keys : Vector Bool 16) (v : Byte)
    (h : finish (storeBytes a bs s) = .next t) :
    finish (storeBytes a bs (withKeySt keys v s)) = .next (withKeySt keys v t) := by
  obtain ⟨hroom, rfl⟩ | ⟨⟨hne, hover⟩, rfl⟩ := storeBytes_cases h
  · exact congrArg finish (storeBytes_ok bs a _ hroom)
  · exact congrArg finish (storeBytes_fault bs a _ hne hover)

theorem exec_ldv_withKeySt {x : Reg} {s t : State} (keys : Vector Bool 16) (v : Byte) (h : exec (.ldv x) s = .next t) :
    exec (.ldv x) (withKeySt keys v s) = .next (withKeySt keys v t) := by
  by_cases hroom : x = 0 ∨ s.i.toNat + x.val ≤ 0x1000
  · rw [exec_ldv_of_room hroom] at h
    cases h
    rw [exec_ldv_of_room (s := withKeySt keys v s) hroom, fillRegs_withKeySt]
    rfl
  · obtain ⟨hx, hover⟩ := not_or.mp hroom
    rw [exec_ldv_of_overrun hx (Nat.not_le.mp hover)] at h
    cases h
    rw [exec_ldv_of_overrun (s := withKeySt keys v s) hx (Nat.not_le.mp hover), fillRegs_withKeySt]
    rfl

theorem exec_drw_withKeySt {x y : Reg} {n : Fin 16} {s t : State} (keys : Vector Bool 16) (v : Byte)
    (h : exec (.drw x y n) s = .next t) :
    exec (.drw x y n) (withKeySt keys v s) = .next (withKeySt keys v t) := by
  by_cases hroom : n = 0 ∨ s.i.toNat + n.val ≤ 0x1000
  · rw [exec_drw_of_room hroom] at h
    cases h
    rw [exec_drw_of_room (s := withKeySt keys v s) hroom, paintRows_withKeySt]
    rfl
  · obtain ⟨hn, hover⟩ := not_or.mp hroom
    rw [exec_drw_of_overrun hn (Nat.not_le.mp hover)] at h
    cases h
    rw [exec_drw_of_overrun (s := withKeySt keys v s) hn (Nat.not_le.mp hover), paintRows_withKeySt]
    rfl

/-- Execute commutes with overwriting the keys and ST, but for LDST, which overwrites ST itself. -/
theorem exec_withKeySt {i : Instr} {s t : State} (keys : Vector Bool 16) (v : Byte) (hi : ∀ x, i ≠ .ldst x)
    (h : exec i s = .next t) : exec i (withKeySt keys v s) = .next (withKeySt keys v t) := by
  cases i with
  | ldst x => exact absurd rfl (hi x)
  | ret =>
    obtain ⟨k, hk, rfl⟩ | ⟨h0, rfl⟩ := execRet_cases h
    · exact exec_ret_of_nonempty (s := withKeySt keys v s) hk
    · exact exec_ret_of_empty (s := withKeySt keys v s) h0
  | call addr =>
    obtain ⟨hk, rfl⟩ | ⟨h16, rfl⟩ := execCall_cases h
    · exact exec_call_of_room (s := withKeySt keys v s) (k := ⟨s.sp.val, hk⟩) rfl
    · exact exec_call_of_full (s := withKeySt keys v s) h16
  | se x kk => rw [exec_se] at h; cases h; exact exec_se x kk _
  | sne x kk => rw [exec_sne] at h; cases h; exact exec_sne x kk _
  | addc x y | sub x y => cases h; rw [apply_ite (withKeySt keys v)]; rfl
  | ldb x | ldrm x => exact storeBytes_withKeySt keys v h
  | ldv x => exact exec_ldv_withKeySt keys v h
  | drw x y n => exact exec_drw_withKeySt keys v h
  | _ => cases h; rfl

/-! ## The step -/

/-- The same for whole steps. The ST that the other step ends with is the one that this step ends with where both start
with the same. -/
theorem step_withKeySt {s t : State} (keys : Vector Bool 16) (v : Byte) (h : step s = .next t) :
    ∃ w, step (withKeySt keys v s) = .next (withKeySt keys w t) ∧ (v = s.st → w = t.st) := by
  obtain ⟨hrun, ⟨hp, rfl⟩ | ⟨hp, i, hd, hexec⟩ | ⟨hp, high, low, hd, rfl⟩⟩ := step_cases h
  · exact ⟨v, step_of_fetchFault (s := withKeySt keys v s) hrun hp, id⟩
  · rw [step_of_known (s := withKeySt keys v s) hrun hp hd]
    by_cases hi : ∀ x, i ≠ .ldst x
    · obtain ⟨-, hst⟩ := exec_timers hexec
      refine ⟨countDown v, exec_withKeySt keys (countDown v) hi hexec, ?_⟩
      rintro rfl
      exact (hst hi).symm
    · simp only [not_forall, not_not] at hi
      obtain ⟨x, rfl⟩ := hi
      cases hexec
      exact ⟨s.getV x, rfl, fun _ => rfl⟩
  · rw [raise_eq, curPc_tick_advance]
    exact ⟨countDown v, step_of_unknown (s := withKeySt keys v s) hrun hp hd, congrArg countDown⟩

theorem step_key {s t : State} (h : step s = .next t) : t.key = s.key := by
  obtain ⟨-, ⟨-, rfl⟩ | ⟨-, i, -, hexec⟩ | ⟨-, high, low, -, rfl⟩⟩ := step_cases h
  · rfl
  · exact (exec_kept hexec).key
  · rfl

/-- Settles O44: other keys, and the ST that the state has. -/
theorem keypadInfluencesNothing : Obligations.KeypadInfluencesNothing := by
  intro s t keys h
  obtain ⟨w, hstep, hst⟩ := step_withKeySt keys s.st h
  obtain rfl := hst rfl
  exact ⟨step_key h, hstep⟩

/-- Settles O45: another ST, and the keys that the state has. -/
theorem soundTimerInfluencesNothing : Obligations.SoundTimerInfluencesNothing := by
  intro s t v h
  obtain ⟨w, hstep, -⟩ := step_withKeySt s.key v h
  refine ⟨w, hstep.trans ?_⟩
  rw [withKeySt, ← step_key h]

end Sys2Proof
end

section
/-!
PROOFS. Whole steps (spec/40_sequencer.md section 1): a halted core, the instruction that a step runs, the self-loop
that ends a run (spec/70_reset_and_hazards.md R127), a word that the program itself has stored (spec/20_memory.md
section 8), and CALL and RET together (spec/95_test_vectors.md E7).
-/
namespace Sys2Proof

open Sys2Proof.Machine

/-- Settles O9: HALTED is tested before the fetch. -/
theorem haltedCoreHasNoStep : Obligations.HaltedCoreHasNoStep :=
  fun _ h => if_pos h

/-- Settles O6: past the fetch, the step is its instruction run on the ticked state. -/
theorem stepRunsDecodedInstruction : Obligations.StepRunsDecodedInstruction :=
  fun _ _ h hp hd => step_of_known h hp hd

/-! ## The self-loop -/

theorem selfLoop_iff (s : State) : selfLoop s = true ↔ s.halted = false ∧ s.pc.toNat ≤ 0xFFE ∧
    (Memory.read s.mem s.pc.toNat ++ Memory.read s.mem (s.pc.toNat + 1) : Word) = 0x1000 + s.pc := by
  simp [selfLoop, and_assoc]

/-- The word `JP a` at its own address `a`. -/
theorem packAddr_jp {w : Word} (h : w.toNat < 0x1000) : packAddr 0x1 (w.setWidth 12) = 0x1000 + w := by
  apply BitVec.eq_of_toNat_eq
  rw [packAddr, BitVec.toNat_append, ← Nat.shiftLeft_add_eq_or_of_lt (BitVec.isLt _), BitVec.toNat_setWidth,
    Nat.mod_eq_of_lt h, BitVec.toNat_add, Nat.mod_eq_of_lt (by show 0x1000 + _ < 0x10000; omega)]
  rfl

theorem zextAddr_setWidth {w : Word} (h : w.toNat < 0x1000) : zextAddr (w.setWidth 12) = w := by
  apply BitVec.eq_of_toNat_eq
  rw [zextAddr_toNat, BitVec.toNat_setWidth, Nat.mod_eq_of_lt h]

theorem decodedAtPc_of_selfLoop {s : State} (h : selfLoop s = true) :
    decodedAtPc s = .known (.jp (s.pc.setWidth 12)) := by
  obtain ⟨-, hp, hword⟩ := (selfLoop_iff s).mp h
  rw [decodedAtPc, ← decodeWord_append, hword, ← packAddr_jp (by omega)]
  exact decodeInvertsEncode (.jp _)

/-- Settles O12: the step runs a JP to the old PC, so what is left of it is the tick. -/
theorem selfLoopOnlyTicks : Obligations.SelfLoopOnlyTicks := by
  refine ⟨fun s h => ?ticks, fun s h => ?halted⟩
  case ticks =>
    obtain ⟨hrun, hp, -⟩ := (selfLoop_iff s).mp h
    rw [step_of_known hrun (by omega) (decodedAtPc_of_selfLoop h)]
    simp only [exec, execJp, zextAddr_setWidth (show s.pc.toNat < 0x1000 by omega)]
    rfl
  case halted => simp [selfLoop, h]

/-! ## A stored word -/

/-- Settles O52: the two bytes that the next fetch reads are V0 and V1. -/
theorem storedWordIsFetchedNext : Obligations.StoredWordIsFetchedNext := by
  intro s i hrun hI hp hd
  obtain ⟨-, hroom, -⟩ := ldrmStoresRegisters 2
  obtain ⟨t, ht, hread, hframe⟩ := hroom s (.inr (by rw [hI]; exact hp))
  have hhalted : t.halted = s.halted := hframe .halted (by simp)
  have hpc : t.pc = s.pc := hframe .pc (by simp)
  have hhigh := hread 0 (by decide)
  have hlow := hread 1 (by decide)
  have hdt : decodedAtPc t = .known i := by
    rw [← hd, ← hhigh, ← hlow, hI, ← hpc]
    rfl
  refine ⟨t, ht, ?_⟩
  rw [step_of_known (hhalted.trans hrun) (hpc ▸ hp) hdt, hpc]

/-! ## CALL and RET -/

/-- Settles O18: RET pops the entry that CALL pushed, and so restores PC and SP. -/
theorem retUndoesCall : Obligations.RetUndoesCall := by
  intro addr s k hk
  have hentry : (s.stk.set k s.pc)[k] = s.pc := Vector.getElem_set_self k.isLt
  refine ⟨_, exec_call_of_room hk, fun p => ⟨_, exec_ret_of_nonempty (k := k) rfl, hentry, fun q hq => ?_⟩⟩
  cases q with
  | pc => exact hentry
  | sp => exact Fin.ext hk.symm
  | stk j => exact setStk_onlyChanges s k s.pc (.stk j) hq
  | _ => exact rfl

end Sys2Proof
end

section
/-!
PROOFS. The memory as an array (spec/20_memory.md sections 1 and 6): reads after any sequence of writes, and that a
canonical list is determined by what it reads as.
-/
namespace Sys2Proof

open Sys2Proof.Machine

/-- Settles O50: by induction on the writes, the last one first; a read sees the last write where it is to its own
address, and the writes before it elsewhere. -/
theorem memoryReturnsLastWrite : Obligations.MemoryReturnsLastWrite := by
  intro writes a
  induction writes using List.reverseRecOn with
  | nil => rfl
  | append_singleton writes w ih =>
    rw [List.foldl_append, List.foldl_cons, List.foldl_nil, Memory.read_write, List.reverse_concat, List.find?_cons]
    by_cases hw : a = w.1
    · simp [hw]
    · rw [if_neg hw, ih, beq_false_of_ne (Ne.symm hw)]

/-! ## Canonical lists -/

theorem read_of_unlisted {m : Memory} {a : Nat} (h : ∀ c ∈ m, c.1 ≠ a) : Memory.read m a = Memory.initial a := by
  induction m with
  | nil => rfl
  | cons c m ih =>
    rw [Memory.read, if_neg (h c List.mem_cons_self), ih fun d hd => h d (List.mem_cons_of_mem c hd)]

theorem read_head (c : Host.Cell) (m : Memory) : Memory.read (c :: m) c.1 = c.2 := if_pos rfl

/-- The parts of a canonical list with a first cell. -/
theorem wf_cons_iff (c : Host.Cell) (m : Memory) : Memory.wf (c :: m) ↔
    ((∀ d ∈ m, c.1 < d.1) ∧ c.1 < Config.memSize ∧ c.2 ≠ Memory.initial c.1) ∧ Memory.wf m := by
  simp only [Memory.wf, List.pairwise_cons, List.forall_mem_cons]
  tauto

/-- Below its first cell, a canonical list reads as at reset. -/
theorem read_of_lt_head {c : Host.Cell} {m : Memory} {a : Nat} (hm : Memory.wf (c :: m)) (ha : a < c.1) :
    Memory.read (c :: m) a = Memory.initial a := by
  obtain ⟨⟨hlt, -, -⟩, -⟩ := (wf_cons_iff c m).mp hm
  refine read_of_unlisted fun d hd => ?_
  obtain rfl | hd := List.mem_cons.mp hd
  · exact ha.ne'
  · exact (ha.trans (hlt d hd)).ne'

/-- A first cell differs from the reset content, so a canonical list that reads alike does not begin above it. -/
theorem head_le_of_read_eq {c d : Host.Cell} {m m' : Memory} (hm : Memory.wf (c :: m)) (hm' : Memory.wf (d :: m'))
    (h : ∀ a, Memory.read (c :: m) a = Memory.read (d :: m') a) : d.1 ≤ c.1 := by
  obtain ⟨⟨-, -, hne⟩, -⟩ := (wf_cons_iff c m).mp hm
  by_contra hlt
  exact hne (((read_head c m).symm.trans (h c.1)).trans (read_of_lt_head hm' (Nat.not_le.mp hlt)))

/-- Settles O51: by induction on the list. Two lists that read alike begin at the same address, with the byte read
there, and their tails read alike, at that address as at reset. -/
theorem canonicalMemoriesReadingAlikeAreEqual : Obligations.CanonicalMemoriesReadingAlikeAreEqual := by
  intro m
  induction m with
  | nil =>
    intro m' _ hm' h
    cases m' with
    | nil => rfl
    | cons d m' =>
      obtain ⟨⟨-, -, hne⟩, -⟩ := (wf_cons_iff d m').mp hm'
      exact absurd ((read_head d m').symm.trans (h d.1).symm) hne
  | cons c m ih =>
    intro m' hm hm' h
    obtain ⟨⟨hlt, -, hne⟩, htail⟩ := (wf_cons_iff c m).mp hm
    cases m' with
    | nil => exact absurd ((read_head c m).symm.trans (h c.1)) hne
    | cons d m' =>
      obtain ⟨⟨hlt', -, hne'⟩, htail'⟩ := (wf_cons_iff d m').mp hm'
      have haddr : c.1 = d.1 :=
        (head_le_of_read_eq hm' hm fun a => (h a).symm).antisymm (head_le_of_read_eq hm hm' h)
      have hbyte : c.2 = d.2 := by rw [← read_head c m, h, haddr, read_head]
      obtain rfl : c = d := Prod.ext haddr hbyte
      refine congrArg (c :: ·) (ih m' htail htail' fun a => ?_)
      have ha := h a
      by_cases hc : c.1 = a
      · subst hc
        rw [read_of_unlisted fun e he => (hlt e he).ne', read_of_unlisted fun e he => (hlt' e he).ne']
      · rwa [Memory.read, Memory.read, if_neg hc, if_neg hc] at ha

end Sys2Proof
end

section
/-!
PROOFS. Two equivalences at the machine's edges: drawing a sprite twice (spec/44_display.md section 2), and the keypad
port (spec/60_exceptions.md sections 5 and 6).
-/
namespace Sys2Proof

open Sys2Proof.Machine

/-- Settles O36: the second DRW reads the same coordinates, I and sprite bytes, so it XORs the same bits into the same
pixels, and a bit XOR-ed twice is gone. -/
theorem drawingTwiceRestores : Obligations.DrawingTwiceRestores := by
  intro x y n s hx hy hroom
  have hrows : 0 + n.val ≤ 32 := by omega
  have hpixel := paintRows_pixel (s.getV x) (s.getV y) n.val 0 s hrows
  obtain ⟨v, fb, hpaint, hv⟩ := paintRows_eq (s.getV x) (s.getV y) n.val 0 s
  have hfirst := exec_drw_of_room (x := x) (y := y) hroom
  rw [hpaint] at hfirst hpixel
  refine ⟨_, _, hfirst, exec_drw_of_room hroom, fun c r => ?_⟩
  have hcx : State.getV { s with v := v, fb := fb } x = s.getV x := hv x hx
  have hcy : State.getV { s with v := v, fb := fb } y = s.getV y := hv y hy
  rw [hcx, hcy, paintRows_pixel _ _ n.val 0 _ hrows, hpixel, Bool.xor_assoc, Bool.xor_self, Bool.xor_false]

/-! ## The keypad port -/

theorem setKey_onlyChanges (s : State) (k : Fin 16) (b : Bool) :
    OnlyChanges (· ∈ [Part.key k]) s { s with key := s.key.set k b } := by
  intro p hp
  cases p with
  | key j =>
    have hne : k.val ≠ j.val := fun h => hp (by simp [Fin.ext h])
    exact Vector.getElem_set_ne k.isLt j.isLt hne
  | _ => exact rfl

theorem writeKey_of_lt (b : Bool) (s : State) (k : Fin 16) :
    writeKey b k.val s = .next { s with key := s.key.set k b } :=
  dif_pos k.isLt

theorem writeKey_of_ge (b : Bool) (s : State) {k : Nat} (h : 16 ≤ k) : writeKey b k s = .refused (.keyIndex k) :=
  dif_neg (Nat.not_lt.mpr h)

/-- Settles O55: both ports are `writeKey`, which writes one key or refuses. -/
theorem keypadPortSetsOneKey : Obligations.KeypadPortSetsOneKey :=
  ⟨fun s k => ⟨_, _, writeKey_of_lt true s k, writeKey_of_lt false s k, Vector.getElem_set_self k.isLt,
    Vector.getElem_set_self k.isLt, setKey_onlyChanges s k true, setKey_onlyChanges s k false⟩,
    fun s _ h => ⟨writeKey_of_ge true s h, writeKey_of_ge false s h⟩⟩

end Sys2Proof
end
